-- ==== Sys2Proof/Word.lean ====
section
/-!
DEFINITION. The bit-vector types of the block (spec/00_scope.md R9, R10: bit 0 is the least significant, all values
are unsigned; spec/10_state.md R22: port widths).
-/

namespace Sys2Proof

/-- The 16-bit flags word, format `FLAGS16` (30_encoding.md R65). -/
abbrev Word := BitVec 16

/-- The 13-bit input vector `IV` (30_encoding.md R68). -/
abbrev InputVector := BitVec 13

/-- A 4-bit field: the `opcode` and `response_code` ports (10_state.md R24, R26). -/
abbrev Nibble := BitVec 4

/-- A 1-bit port (10_state.md R23, R25). -/
abbrev Bit := BitVec 1

/-- One byte of the serialised word (20_memory.md R41). -/
abbrev Byte := BitVec 8

end Sys2Proof
end

