-- ==== Sys2Proof/Syntax.lean ====
section
/-!
DEFINITION. The record Flags and its closed enumerations (10_state.md R29, 30_encoding.md R61 to R64), the input
ports (10_state.md R22), the two forms of an evaluation (30_encoding.md R70, R74) and the operations of
opcode_table.json, one constructor a row.
-/

namespace Sys2Proof

/-- MessageType, 2 variants (R61). -/
inductive MessageType where
  | query | response
deriving DecidableEq, Repr

/-- Opcode, 3 variants (R62). The DNS field, data carried through the block; not an operation selector (R70). -/
inductive Opcode where
  | query | iquery | status
deriving DecidableEq, Repr

/-- ResponseCode, 6 variants (R63). -/
inductive ResponseCode where
  | noError | formErr | servFail | nxDomain | notImp | refused
deriving DecidableEq, Repr

/-- The typed input record Flags (R29): four switches, not three (90_conflicts.md C1). -/
structure Flags where
  messageType        : MessageType
  opcode             : Opcode
  authoritative      : Bool
  truncated          : Bool
  recursionDesired   : Bool
  recursionAvailable : Bool
  responseCode       : ResponseCode
deriving DecidableEq, Repr

/-- What the seven input ports carry: raw codes, exactly as wide as the ports (R22). A port holds only bits, so an
undriven input cannot be written (70_reset_and_hazards.md R185). -/
structure Ports where
  messageType        : Bit
  opcode             : Nibble
  authoritative      : Bit
  truncated          : Bit
  recursionDesired   : Bit
  recursionAvailable : Bit
  responseCode       : Nibble
deriving DecidableEq, Repr

/-- The two forms in which a caller writes an evaluation (R74). The form is no bit of any input (R70): it says
whether the caller speaks at the typed level or at the port level. -/
inductive Form where
  /-- `ENCODE {…}`: the bits are the codes of a Flags record. -/
  | record
  /-- `ENCODE_RAW iv=…`: the bits are what the ports carry. -/
  | vector
deriving DecidableEq, Repr

/-- One evaluation as the caller presents it. Bits 12 to 0 of `word` are the input vector IV (R68); the three bits
above it drive no port, and a word that sets one of them is no evaluation (DESIGN CHOICE, log entry 3). -/
structure Evaluation where
  form : Form
  word : Word
deriving DecidableEq, Repr

/-- Why a word is not an evaluation. -/
inductive Rejection where
  /-- A bit above the 13 of the input vector is set: there is no such port (R22, R60). -/
  | noSuchPort
  /-- A record whose code names no variant: "illegal values are unrepresentable" (R71). -/
  | unrepresentable
deriving DecidableEq, Repr

/-- The operations: one constructor for each row of opcode_table.json, in the table's order. An
INVALID_FIELD_VALUE row carries the bits its pattern leaves free, so that it can hold no vector outside its
pattern; the row's own bits are written by the encoder (30_encoding.md R76). -/
inductive Instr where
  /-- ENCODE (R100): one Flags record. -/
  | encode (flags : Flags)
  /-- ENCODE_RAW (R130): the raw ports. -/
  | encodeRaw (ports : Ports)
  /-- INVALID_FIELD_VALUE, opcode = 3. -/
  | invalidOpcode3 (messageType authoritative truncated recursionDesired recursionAvailable : Bit)
      (responseCode : Nibble)
  /-- INVALID_FIELD_VALUE, opcode = 4 to 7: `opcodeLow` is opcode[1:0]. -/
  | invalidOpcode4To7 (messageType : Bit) (opcodeLow : BitVec 2)
      (authoritative truncated recursionDesired recursionAvailable : Bit) (responseCode : Nibble)
  /-- INVALID_FIELD_VALUE, opcode = 8 to 15: `opcodeLow` is opcode[2:0]. -/
  | invalidOpcode8To15 (messageType : Bit) (opcodeLow : BitVec 3)
      (authoritative truncated recursionDesired recursionAvailable : Bit) (responseCode : Nibble)
  /-- INVALID_FIELD_VALUE, response_code = 6 or 7: `responseCodeLow` is response_code[0]. -/
  | invalidResponseCode6To7 (messageType : Bit) (opcode : Nibble)
      (authoritative truncated recursionDesired recursionAvailable : Bit) (responseCodeLow : Bit)
  /-- INVALID_FIELD_VALUE, response_code = 8 to 15: `responseCodeLow` is response_code[2:0]. -/
  | invalidResponseCode8To15 (messageType : Bit) (opcode : Nibble)
      (authoritative truncated recursionDesired recursionAvailable : Bit) (responseCodeLow : BitVec 3)
deriving DecidableEq, Repr

end Sys2Proof
end

