-- ==== Sys2Proof/WellFormed.lean ====
section
/-!
DEFINITION. Which terms of Instr are the reading of an input vector. Only the precedence of opcode_table.json's rows
needs a check (30_encoding.md R76): the INVALID_FIELD_VALUE rows take precedence over ENCODE_RAW, and of two
INVALID_FIELD_VALUE rows that match the same vector the first one reads it (DESIGN CHOICE, log entry 5: they have the
same effect, 41_encode_raw.md R137).
-/

namespace Sys2Proof

/-- The opcode codes that name a variant: 0 to 2 (41_encode_raw.md R132). -/
def opcodeInRange (c : Nibble) : Bool := decide (c.toNat ≤ 2)

/-- The response codes that name a variant: 0 to 5 (41_encode_raw.md R132). -/
def responseCodeInRange (c : Nibble) : Bool := decide (c.toNat ≤ 5)

/-- The term is the reading of its own input vector. -/
def Instr.wellFormed : Instr → Bool
  | .encode _ => true
  | .encodeRaw p => opcodeInRange p.opcode && responseCodeInRange p.responseCode
  | .invalidOpcode3 _ _ _ _ _ _ => true
  | .invalidOpcode4To7 _ _ _ _ _ _ _ => true
  | .invalidOpcode8To15 _ _ _ _ _ _ _ => true
  | .invalidResponseCode6To7 _ op _ _ _ _ _ => opcodeInRange op
  | .invalidResponseCode8To15 _ op _ _ _ _ _ => opcodeInRange op

end Sys2Proof
end

