-- ==== Sys2Proof/Decode.lean ====
section
/-!
DEFINITION. The codes of the enumerations (30_encoding.md R61 to R64), the input vector (R68), the reading of an
evaluation by the rows of opcode_table.json (R76), and the encoder.
-/

namespace Sys2Proof

/-! ### Field codes -/

/-- R61 (the pairing is recovered from scenarios S1 and S8, 91_not_in_source.md N1). -/
def MessageType.code : MessageType → Bit
  | .query => 0
  | .response => 1

/-- R62. -/
def Opcode.code : Opcode → Nibble
  | .query => 0
  | .iquery => 1
  | .status => 2

/-- R63. -/
def ResponseCode.code : ResponseCode → Nibble
  | .noError => 0
  | .formErr => 1
  | .servFail => 2
  | .nxDomain => 3
  | .notImp => 4
  | .refused => 5

/-- `bool_to_bit` (00_scope.md R10, 30_encoding.md R64): 1 is true. -/
def bitOfBool (b : Bool) : Bit := BitVec.ofBool b

/-- The switch a port carries (R64). -/
def boolOfBit (b : Bit) : Bool := b == 1

/-- The variant of a `message_type` code: both codes name one (R61, 41_encode_raw.md R138). -/
def messageTypeOfCode (c : Bit) : MessageType := if c = 0 then .query else .response

/-- The variant of an `opcode` code; codes 3 to 15 name none (R62, R71). -/
def opcodeOfCode (c : Nibble) : Option Opcode :=
  if c = 0 then some .query else if c = 1 then some .iquery else if c = 2 then some .status else none

/-- The variant of a `response_code` code; codes 6 to 15 name none (R63, R71). -/
def responseCodeOfCode (c : Nibble) : Option ResponseCode :=
  if c = 0 then some .noError else if c = 1 then some .formErr else if c = 2 then some .servFail
  else if c = 3 then some .nxDomain else if c = 4 then some .notImp else if c = 5 then some .refused else none

/-! ### Records, ports and the input vector -/

/-- The codes of a record, as the ports carry them (R22). -/
def portsOfRecord (f : Flags) : Ports where
  messageType := f.messageType.code
  opcode := f.opcode.code
  authoritative := bitOfBool f.authoritative
  truncated := bitOfBool f.truncated
  recursionDesired := bitOfBool f.recursionDesired
  recursionAvailable := bitOfBool f.recursionAvailable
  responseCode := f.responseCode.code

/-- The record the codes on the ports name, if they name one (41_encode_raw.md R130). -/
def recordOfPorts (p : Ports) : Option Flags :=
  match opcodeOfCode p.opcode, responseCodeOfCode p.responseCode with
  | some op, some rc => some
      { messageType := messageTypeOfCode p.messageType
        opcode := op
        authoritative := boolOfBit p.authoritative
        truncated := boolOfBit p.truncated
        recursionDesired := boolOfBit p.recursionDesired
        recursionAvailable := boolOfBit p.recursionAvailable
        responseCode := rc }
  | _, _ => none

/-- `IV = {message_type, opcode, authoritative, truncated, recursion_desired, recursion_available, response_code}`,
bit 12 first (R68). -/
def vectorOfPorts (p : Ports) : InputVector :=
  (p.messageType ++ p.opcode ++ p.authoritative ++ p.truncated ++ p.recursionDesired ++ p.recursionAvailable
    ++ p.responseCode).cast rfl

/-- The ports an input vector drives (R68's table). -/
def portsOfVector (v : InputVector) : Ports where
  messageType := v.extractLsb' 12 1
  opcode := v.extractLsb' 8 4
  authoritative := v.extractLsb' 7 1
  truncated := v.extractLsb' 6 1
  recursionDesired := v.extractLsb' 5 1
  recursionAvailable := v.extractLsb' 4 1
  responseCode := v.extractLsb' 0 4

/-- The input vector of an evaluation: bits 12 to 0 of its word. -/
def vectorOfWord (w : Word) : InputVector := w.setWidth 13

/-- The word that holds an input vector and nothing above it. -/
def wordOfVector (v : InputVector) : Word := v.setWidth 16

/-- Whether a word sets a bit that drives no port. -/
def setsNoSuchPort (w : Word) : Bool := w >>> 13 != 0

/-! ### The rows of opcode_table.json -/

/-- A row matches when `(IV & mask) == match` (R76). -/
def rowMatches (mask pattern v : InputVector) : Bool := v &&& mask == pattern

/-- The five INVALID_FIELD_VALUE rows as (mask, match), in the table's order (R76). -/
def invalidRows : List (InputVector × InputVector) :=
  [(0x0F00, 0x0300), (0x0C00, 0x0400), (0x0800, 0x0800), (0x000E, 0x0006), (0x0008, 0x0008)]

/-- Reads an input vector at the port level: the first INVALID_FIELD_VALUE row that matches, else ENCODE_RAW (R76). -/
def decodeVector (v : InputVector) : Instr :=
  let p := portsOfVector v
  if rowMatches 0x0F00 0x0300 v then
    .invalidOpcode3 p.messageType p.authoritative p.truncated p.recursionDesired p.recursionAvailable p.responseCode
  else if rowMatches 0x0C00 0x0400 v then
    .invalidOpcode4To7 p.messageType (p.opcode.extractLsb' 0 2) p.authoritative p.truncated p.recursionDesired
      p.recursionAvailable p.responseCode
  else if rowMatches 0x0800 0x0800 v then
    .invalidOpcode8To15 p.messageType (p.opcode.extractLsb' 0 3) p.authoritative p.truncated p.recursionDesired
      p.recursionAvailable p.responseCode
  else if rowMatches 0x000E 0x0006 v then
    .invalidResponseCode6To7 p.messageType p.opcode p.authoritative p.truncated p.recursionDesired
      p.recursionAvailable (p.responseCode.extractLsb' 0 1)
  else if rowMatches 0x0008 0x0008 v then
    .invalidResponseCode8To15 p.messageType p.opcode p.authoritative p.truncated p.recursionDesired
      p.recursionAvailable (p.responseCode.extractLsb' 0 3)
  else .encodeRaw p

/-- Reads an input vector at the typed level: the record its codes name; "illegal values are unrepresentable" (R71). -/
def decodeRecord (v : InputVector) : Except Rejection Instr :=
  match recordOfPorts (portsOfVector v) with
  | some f => .ok (.encode f)
  | none => .error .unrepresentable

/-- Reads any evaluation, total, rejecting by name. -/
def decode (e : Evaluation) : Except Rejection Instr :=
  if setsNoSuchPort e.word then .error .noSuchPort
  else match e.form with
    | .record => decodeRecord (vectorOfWord e.word)
    | .vector => .ok (decodeVector (vectorOfWord e.word))

/-! ### The encoder -/

/-- What the ports carry in an evaluation of this operation. The fixed bits of the INVALID_FIELD_VALUE rows are the
table's `fixed` fields (R76). -/
def portsOfInstr : Instr → Ports
  | .encode f => portsOfRecord f
  | .encodeRaw p => p
  | .invalidOpcode3 mt aa tc rd ra rc => ⟨mt, 3, aa, tc, rd, ra, rc⟩
  | .invalidOpcode4To7 mt lo aa tc rd ra rc => ⟨mt, (0b01#2 ++ lo).cast rfl, aa, tc, rd, ra, rc⟩
  | .invalidOpcode8To15 mt lo aa tc rd ra rc => ⟨mt, (0b1#1 ++ lo).cast rfl, aa, tc, rd, ra, rc⟩
  | .invalidResponseCode6To7 mt op aa tc rd ra lo => ⟨mt, op, aa, tc, rd, ra, (0b011#3 ++ lo).cast rfl⟩
  | .invalidResponseCode8To15 mt op aa tc rd ra lo => ⟨mt, op, aa, tc, rd, ra, (0b1#1 ++ lo).cast rfl⟩

/-- The form in which the operation is written (R70, R74). -/
def formOfInstr : Instr → Form
  | .encode _ => .record
  | .encodeRaw _ => .vector
  | .invalidOpcode3 _ _ _ _ _ _ => .vector
  | .invalidOpcode4To7 _ _ _ _ _ _ _ => .vector
  | .invalidOpcode8To15 _ _ _ _ _ _ _ => .vector
  | .invalidResponseCode6To7 _ _ _ _ _ _ _ => .vector
  | .invalidResponseCode8To15 _ _ _ _ _ _ _ => .vector

/-- The evaluation of a well-formed operation: its form and its input vector. -/
def encode (i : Instr) : Evaluation where
  form := formOfInstr i
  word := wordOfVector (vectorOfPorts (portsOfInstr i))

/-! ### The host's numbering -/

/-- An opcode-table word as an evaluation. The table's patterns are over IV, what the ports carry, so the form is the
port level (R70: "The hardware block is ENCODE_RAW"; DESIGN CHOICE, log entry 4). -/
def evaluationOfTableWord (nbits w : Nat) : Evaluation where
  form := .vector
  word := BitVec.ofNat 16 (w % 2 ^ nbits)

/-- The operation the decoder reads from an opcode-table word (bit 0 of `w` is IV[0]). -/
def decodeTableWord (nbits w : Nat) : Option Instr :=
  match decode (evaluationOfTableWord nbits w) with
  | .ok i => some i
  | .error _ => none

end Sys2Proof
end

