-- ==== Sys2Proof/Machine/Flags.lean ====
section
/-!
DEFINITION. The block has no status flag and no condition code (10_state.md R33). Its one computed bit is the error
indication `invalid_field_value` (41_encode_raw.md R132), given here in the rule's two lines.
-/

namespace Sys2Proof.Machine

/-- `(opcode > 2) or (response_code > 5)` (R132, first line; the defined range is the variant set, decision D4). -/
def fieldOutOfRange (p : Ports) : Bool := decide (p.opcode.toNat > 2) || decide (p.responseCode.toNat > 5)

/-- The gate form of the same bit (R132, second line). -/
def fieldOutOfRangeGates (p : Ports) : Bool :=
  p.opcode.getLsbD 3 || p.opcode.getLsbD 2 || (p.opcode.getLsbD 1 && p.opcode.getLsbD 0)
    || p.responseCode.getLsbD 3 || (p.responseCode.getLsbD 2 && p.responseCode.getLsbD 1)

end Sys2Proof.Machine
end

