-- ==== Sys2Proof/Machine/Operands.lean ====
section
/-!
DEFINITION. The hard-wired constants (10_state.md R34), the placement of each field in the output word
(30_encoding.md R67), the layout FLAGS16 (R65) with the reading of its fields (R75), and the byte order in which the
external serialiser stores the word (20_memory.md R41). All operands of the block are port fields: it has no other
operand form and no addressing mode (40_encode.md R117).
-/

namespace Sys2Proof.Machine

/-! ### Constants (R34) -/

def shiftMessageType : Nat := 15
def shiftOpcode : Nat := 11
def shiftAuthoritative : Nat := 10
def shiftTruncated : Nat := 9
def shiftRecursionDesired : Nat := 8
def shiftRecursionAvailable : Nat := 7

/-- `RESERVED_MASK`, 1111 1111 1000 1111 (R34, R105). -/
def reservedMask : Word := 0xFF8F

/-! ### Placement of a field (R67) -/

/-- A message_type code at bit 15 (R102). -/
def placeMessageType (code : Word) : Word := code <<< shiftMessageType

/-- An opcode code at bits 14 to 11 (R103). -/
def placeOpcode (code : Word) : Word := code <<< shiftOpcode

/-- A switch: a single set bit at its shift when true, nothing when false (R104). -/
def placeSwitch (shift : Nat) (on : Bool) : Word := if on then (1 : Word) <<< shift else 0

/-- A response code, unshifted (R106). -/
def placeResponseCode (code : Word) : Word := code

/-! ### The output word -/

/-- The layout FLAGS16, bit 15 first: `QOOOOATDVZZZRRRR` with Z = 000 (R65, R66). -/
def flags16 (p : Ports) : Word :=
  (p.messageType ++ p.opcode ++ p.authoritative ++ p.truncated ++ p.recursionDesired ++ p.recursionAvailable
    ++ 0b000#3 ++ p.responseCode).cast rfl

/-- The fields read out of a word: a way of checking results, not an operation of the block (R75). The reserved bits
are `wordReserved`. -/
def fieldsOfWord (w : Word) : Ports where
  messageType := w.extractLsb' 15 1
  opcode := w.extractLsb' 11 4
  authoritative := w.extractLsb' 10 1
  truncated := w.extractLsb' 9 1
  recursionDesired := w.extractLsb' 8 1
  recursionAvailable := w.extractLsb' 7 1
  responseCode := w.extractLsb' 0 4

/-- Bits 6 to 4 of a word, the reserved bits Z (R65, R75). -/
def wordReserved (w : Word) : BitVec 3 := w.extractLsb' 4 3

/-! ### The consumer's byte order -/

/-- The byte stores of the external serialiser for a header at `h`, in order: `flags[15:8]` at `h + 2`, then
`flags[7:0]` at `h + 3` (R41). The block makes no store (R40); the rule binds the consumer, which is out of scope
(00_scope.md R5), so no memory stands in State (log entry 12). -/
def serialise (h : Nat) (w : Word) : List (Nat × Byte) :=
  [(h + 2, w.extractLsb' 8 8), (h + 3, w.extractLsb' 0 8)]

end Sys2Proof.Machine
end

