-- ==== Sys2Proof/Machine/State.lean ====
section
/-!
DEFINITION. The state, the ways a step can end without a next state, and the state after reset.
The block itself has no architectural state (10_state.md R20): no register, flag, memory, counter or pc. What stands
here is the interface of one evaluation, the values on the ports (R22), and the caller's list of evaluations to come.
-/

namespace Sys2Proof.Machine

/-- The outcome of one evaluation (10_state.md R27, R28; 41_encode_raw.md R133: "A model returns the error, not a
word"). The two output ports are views of it (Machine/Ops.lean). -/
inductive EvalResult where
  /-- A flags word; `invalid_field_value` is 0. -/
  | word (flags : Word)
  /-- InvalidFieldValue (60_exceptions.md R150): no word, no field identity (R137). -/
  | invalidFieldValue
deriving DecidableEq, Repr

/-- The machine. -/
structure State where
  /-- What the caller drives on the seven input ports (R22), held until the next evaluation (R183). -/
  ports   : Ports
  /-- What the output ports show (R27, R28): the result of the last evaluation, kept while the inputs are held (R183). -/
  outputs : EvalResult
  /-- The evaluations the caller presents next, oldest first: the model's own, outside the block (log entry 1). -/
  pending : List Evaluation
deriving DecidableEq, Repr

/-- Nothing stops the block with a fault: its one error is an output of the evaluation (60_exceptions.md R150, R151,
R155), and it never waits (93_implementation_defined.md section 1). So there is no constructor. -/
inductive Fault where
deriving DecidableEq, Repr

/-- Why a step is refused. -/
inductive Refusal where
  /-- An operation with no meaning in the model: raised by no arm of exec. Safe. -/
  | notModelled (mnemonic : String)
  /-- What the caller presents is no evaluation of the block: raised by step when decode rejects it, with the
  decoder's reason. Safe: no claim covers such a caller (log entry 3). -/
  | notAnEvaluation (why : Rejection)
deriving DecidableEq, Repr

/-- Power-up. The block has nothing to reset (10_state.md R37, 70_reset_and_hazards.md R180); its outputs are the
function of its present inputs. The inputs are the caller's to drive (R182): all zero here, with nothing pending
(DESIGN CHOICE, unsafe, log entry 2). With those inputs the word is 0x0000 (vector S1). -/
def State.reset : State where
  ports := ⟨0, 0, 0, 0, 0, 0, 0⟩
  outputs := .word 0x0000
  pending := []

end Sys2Proof.Machine
end

