-- ==== Sys2Proof/Machine/Ops.lean ====
section
/-!
DEFINITION. The shared operations: the composition of the word (40_encode.md R100 to R107), the check and composition
at the port level (41_encode_raw.md R130), delivering a word, raising the error, the output ports, and the caller's
presenting of an evaluation.
-/

namespace Sys2Proof.Machine

/-! ### The composition, step by step -/

/-- Steps 1 to 4 (R101 to R104): the accumulator before the mask. The codes are given as 16-bit values
(zero-extended), as in R67. -/
def accumulate (mt op : Word) (aa tc rd ra : Bool) : Word :=
  let acc : Word := 0x0000
  let acc := acc ||| placeMessageType mt
  let acc := acc ||| placeOpcode op
  let acc := acc ||| placeSwitch shiftAuthoritative aa
  let acc := acc ||| placeSwitch shiftTruncated tc
  let acc := acc ||| placeSwitch shiftRecursionDesired rd
  acc ||| placeSwitch shiftRecursionAvailable ra

/-- Step 5 (R105): the mask that clears the reserved bits. -/
def maskReserved (acc : Word) : Word := acc &&& reservedMask

/-- Step 6 (R106): the response code, after the mask (90_conflicts.md C2). -/
def addResponseCode (rc acc : Word) : Word := acc ||| placeResponseCode rc

/-- The seven steps on 16-bit codes (R100). -/
def composeWord (mt op : Word) (aa tc rd ra : Bool) (rc : Word) : Word :=
  addResponseCode rc (maskReserved (accumulate mt op aa tc rd ra))

/-- ENCODE of one record (R100). -/
def encodeWord (f : Flags) : Word :=
  composeWord (f.messageType.code.setWidth 16) (f.opcode.code.setWidth 16) f.authoritative f.truncated
    f.recursionDesired f.recursionAvailable (f.responseCode.code.setWidth 16)

/-- ENCODE_RAW as a function of the ports (R130): the check, then ENCODE of the record the codes name. A code that
passes the check names a variant (Laws/Ops.lean, `recordOfPorts_eq_none_iff`), so the last case gives nothing away. -/
def evaluatePorts (p : Ports) : EvalResult :=
  if fieldOutOfRange p then .invalidFieldValue
  else match recordOfPorts p with
    | some f => .word (encodeWord f)
    | none => .invalidFieldValue

/-! ### The outputs -/

/-- The evaluation's result appears on the outputs, both at once (20_memory.md R40). -/
def driveOutputs (r : EvalResult) (s : State) : State := { s with outputs := r }

/-- The evaluation ends in a word. -/
def deliver (w : Word) (s : State) : Host.Outcome State Fault Refusal := .next (driveOutputs (.word w) s)

/-- The evaluation raises InvalidFieldValue (60_exceptions.md R150): no saved state, no mode change, no transfer, only
the error on the outputs of the same evaluation (R155). There is no handler and no return beside it (R156): the next
evaluation starts afresh (R152). -/
def raiseInvalidFieldValue (s : State) : Host.Outcome State Fault Refusal := .next (driveOutputs .invalidFieldValue s)

/-- Output port `flags`: the word, or 0x0000 while the error is raised (41_encode_raw.md R133, decision D5). -/
def flagsPort (s : State) : Word :=
  match s.outputs with
  | .word w => w
  | .invalidFieldValue => 0x0000

/-- Output port `invalid_field_value`: 1 is the error (10_state.md R28, decision D6). -/
def invalidFieldValuePort (s : State) : Bit :=
  match s.outputs with
  | .word _ => 0
  | .invalidFieldValue => 1

/-! ### Presenting an evaluation -/

/-- The caller drives the input ports with the bits of an evaluation (R182, R183); the block never writes them
(10_state.md R31). -/
def drivePorts (p : Ports) (s : State) : State := { s with ports := p }

/-- The caller's list of evaluations to come. -/
def setPending (l : List Evaluation) (s : State) : State := { s with pending := l }

/-- The evaluation the held inputs amount to (R70: the operation is performed continuously on what the inputs hold). -/
def heldEvaluation (p : Ports) : Evaluation := { form := .vector, word := wordOfVector (vectorOfPorts p) }

/-- The next evaluation and the state in which the block runs it: the oldest pending one, its bits driven on the ports
(log entry 13); with nothing pending, the inputs are held as they are (R183). -/
def fetch (s : State) : Evaluation × State :=
  match s.pending with
  | [] => (heldEvaluation s.ports, s)
  | e :: rest => (e, drivePorts (portsOfVector (vectorOfWord e.word)) (setPending rest s))

/-- The caller presents one more evaluation, ahead of those pending. -/
def present (e : Evaluation) (s : State) : State := setPending (e :: s.pending) s

end Sys2Proof.Machine
end

