-- ==== Sys2Proof/Machine/Encode.lean ====
section
/-!
DEFINITION. ENCODE, the typed level (40_encode.md R100).
-/

namespace Sys2Proof.Machine

/-- ENCODE (R100): every record has exactly one word; there is no error path and no check of meaning (R120). -/
def execEncode (f : Flags) (s : State) : Host.Outcome State Fault Refusal := deliver (encodeWord f) s

end Sys2Proof.Machine
end

