-- ==== Sys2Proof/Machine/EncodeRaw.lean ====
section
/-!
DEFINITION. ENCODE_RAW, the port level (41_encode_raw.md R130).
-/

namespace Sys2Proof.Machine

/-- ENCODE_RAW (R130): the word of the record the codes name, or InvalidFieldValue. -/
def execEncodeRaw (p : Ports) (s : State) : Host.Outcome State Fault Refusal :=
  match evaluatePorts p with
  | .word w => deliver w s
  | .invalidFieldValue => raiseInvalidFieldValue s

end Sys2Proof.Machine
end

