-- ==== Sys2Proof/Machine/InvalidFieldValue.lean ====
section
/-!
DEFINITION. The five INVALID_FIELD_VALUE rows of opcode_table.json (30_encoding.md R76, 41_encode_raw.md R132, R133).
Each raises the one error, whatever its free bits are (R137: no field identity).
-/

namespace Sys2Proof.Machine

/-- Row opcode = 3. -/
def execInvalidOpcode3 (_mt _aa _tc _rd _ra : Bit) (_rc : Nibble) (s : State) : Host.Outcome State Fault Refusal :=
  raiseInvalidFieldValue s

/-- Row opcode = 4 to 7. -/
def execInvalidOpcode4To7 (_mt : Bit) (_opLow : BitVec 2) (_aa _tc _rd _ra : Bit) (_rc : Nibble) (s : State) :
    Host.Outcome State Fault Refusal :=
  raiseInvalidFieldValue s

/-- Row opcode = 8 to 15. -/
def execInvalidOpcode8To15 (_mt : Bit) (_opLow : BitVec 3) (_aa _tc _rd _ra : Bit) (_rc : Nibble) (s : State) :
    Host.Outcome State Fault Refusal :=
  raiseInvalidFieldValue s

/-- Row response_code = 6 or 7. -/
def execInvalidResponseCode6To7 (_mt : Bit) (_op : Nibble) (_aa _tc _rd _ra : Bit) (_rcLow : Bit) (s : State) :
    Host.Outcome State Fault Refusal :=
  raiseInvalidFieldValue s

/-- Row response_code = 8 to 15. -/
def execInvalidResponseCode8To15 (_mt : Bit) (_op : Nibble) (_aa _tc _rd _ra : Bit) (_rcLow : BitVec 3) (s : State) :
    Host.Outcome State Fault Refusal :=
  raiseInvalidFieldValue s

end Sys2Proof.Machine
end

