-- ==== Sys2Proof/Machine/Dispatch.lean ====
section
/-!
DEFINITION. The one dispatch: one arm per row of opcode_table.json.
-/

namespace Sys2Proof.Machine

def exec (i : Instr) (s : State) : Host.Outcome State Fault Refusal :=
  match i with
  | .encode f => Sys2Proof.Machine.execEncode f s
  | .encodeRaw p => Sys2Proof.Machine.execEncodeRaw p s
  | .invalidOpcode3 mt aa tc rd ra rc => Sys2Proof.Machine.execInvalidOpcode3 mt aa tc rd ra rc s
  | .invalidOpcode4To7 mt lo aa tc rd ra rc => Sys2Proof.Machine.execInvalidOpcode4To7 mt lo aa tc rd ra rc s
  | .invalidOpcode8To15 mt lo aa tc rd ra rc => Sys2Proof.Machine.execInvalidOpcode8To15 mt lo aa tc rd ra rc s
  | .invalidResponseCode6To7 mt op aa tc rd ra lo => Sys2Proof.Machine.execInvalidResponseCode6To7 mt op aa tc rd ra lo s
  | .invalidResponseCode8To15 mt op aa tc rd ra lo => Sys2Proof.Machine.execInvalidResponseCode8To15 mt op aa tc rd ra lo s

end Sys2Proof.Machine
end

