-- ==== Sys2Proof/Machine/Step.lean ====
section
/-!
DEFINITION. One step is one evaluation (10_state.md R20): the caller presents inputs and holds them for `T_PD`, the
block answers, the outputs are sampled (70_reset_and_hazards.md R183; log entry 8). There is no program counter (R21).
-/

namespace Sys2Proof.Machine

/-- One evaluation: present the next one, read it, run it. What is no evaluation is refused by name. -/
def step (s : State) : Host.Outcome State Fault Refusal :=
  match decode (fetch s).1 with
  | .ok i => exec i (fetch s).2
  | .error why => .refused (.notAnEvaluation why)

/-- The state in which the next step runs exactly the operation of this opcode-table word: the caller presents it at
the ports first (log entry 11). -/
def State.withFetchWord (s : State) (nbits w : Nat) : State := present (evaluationOfTableWord nbits w) s

end Sys2Proof.Machine
end

