-- ==== Sys2Proof/Config.lean ====
section
/-!
DEFINITION. What a realisation of the block fixes. Every functional parameter is fixed by the spec (00_scope.md R7)
and stands where it is used; the one parameter left open is the settling time.
-/

namespace Sys2Proof

/-- `T_PD`, the settling time of the realisation, in any unit of time (70_reset_and_hazards.md R188, decision D12:
OPEN). It has no value: no rule depends on it, and nothing here can evaluate it. -/
opaque Config.propagationDelay : Nat

end Sys2Proof
end

