-- ==== Sys2Proof/Safety.lean ====
section
/-!
DEFINITION. The terms claims use: when an evaluation counts, when its word may be used, and the invariants of the
outputs.
-/

namespace Sys2Proof.Machine

/-- The inputs were held long enough before the outputs were sampled (70_reset_and_hazards.md R183). Every step of the
model stands for an evaluation that meets it (log entry 8); nothing is said of one that does not (R184). -/
def SampledInTime (heldFor : Nat) : Prop := Config.propagationDelay ≤ heldFor

/-- A consumer may use `flags`: it must not while the error is raised (41_encode_raw.md R133). -/
def flagsUsable (s : State) : Bool := invalidFieldValuePort s == 0

/-- The outputs are the function of the present inputs, and of nothing else (10_state.md R36, R37; R180, R183). -/
abbrev OutputsMatchInputs (s : State) : Prop := s.outputs = evaluatePorts s.ports

/-- Bits 6 to 4 of the `flags` output are 0 (30_encoding.md R66). -/
abbrev ReservedBitsZero (s : State) : Prop := wordReserved (flagsPort s) = 0

end Sys2Proof.Machine
end

