-- ==== Sys2Proof/Certificates/Slice0/Obligations.lean ====
section
/-!
DEFINITION. The statements for the provers. Each docstring names the rule of spec/ it formalises; where a clause is the
model's own choice, it names the log entry.
-/

open Sys2Proof Sys2Proof.Machine

/-! ### Codes, encodings and reading an evaluation -/

/-- R61, R62, R63, R64: the codes of the variants, that no other code names one, and the bits each code occupies in the
word. -/
def Obligations.FieldCodesAreTheTables : Prop :=
  (MessageType.query.code = 0 ∧ MessageType.response.code = 1) ∧
  (Opcode.query.code = 0 ∧ Opcode.iquery.code = 1 ∧ Opcode.status.code = 2) ∧
  (ResponseCode.noError.code = 0 ∧ ResponseCode.formErr.code = 1 ∧ ResponseCode.servFail.code = 2 ∧
    ResponseCode.nxDomain.code = 3 ∧ ResponseCode.notImp.code = 4 ∧ ResponseCode.refused.code = 5) ∧
  (bitOfBool true = 1 ∧ bitOfBool false = 0) ∧
  (∀ (c : Bit) (m : MessageType), messageTypeOfCode c = m ↔ m.code = c) ∧
  (∀ (c : Nibble) (o : Opcode), opcodeOfCode c = some o ↔ o.code = c) ∧
  (∀ (c : Nibble) (r : ResponseCode), responseCodeOfCode c = some r ↔ r.code = c) ∧
  (∀ c : Nibble, opcodeOfCode c = none ↔ 3 ≤ c.toNat) ∧
  (∀ c : Nibble, responseCodeOfCode c = none ↔ 6 ≤ c.toNat) ∧
  (∀ (f : Flags) (k : Nat) (b : Bool),
    (k, b) ∈ [(10, f.authoritative), (9, f.truncated), (8, f.recursionDesired), (7, f.recursionAvailable)] →
      (encodeWord f).getLsbD k = b) ∧
  (∀ f : Flags, (encodeWord f).extractLsb' 15 1 = f.messageType.code ∧
    (encodeWord f).extractLsb' 11 4 = f.opcode.code ∧ (encodeWord f).extractLsb' 0 4 = f.responseCode.code)

/-- Words written out by hand from R61 to R68 and R76's patterns, bit 12 first after three zero bits: each row reads
its own. The model's choice is the form beside the bits (log entry 3): ENCODE is read in the form of a record, which no
opcode-table word has (log entry 4). -/
def Obligations.WrittenOutVectorsDecode : Prop :=
  decode ⟨.record, 0b000_1_0001_1111_0101#16⟩ =
    .ok (.encode ⟨.response, .iquery, true, true, true, true, .refused⟩) ∧
  decode ⟨.vector, 0b000_1_0010_1111_0101#16⟩ = .ok (.encodeRaw ⟨1, 2, 1, 1, 1, 1, 5⟩) ∧
  decode ⟨.vector, 0b000_0_0011_0000_0100#16⟩ = .ok (.invalidOpcode3 0 0 0 0 0 4) ∧
  decode ⟨.vector, 0b000_1_0110_1000_0000#16⟩ = .ok (.invalidOpcode4To7 1 2 1 0 0 0 0) ∧
  decode ⟨.vector, 0b000_0_1110_0000_0101#16⟩ = .ok (.invalidOpcode8To15 0 6 0 0 0 0 5) ∧
  decode ⟨.vector, 0b000_0_0000_0010_0110#16⟩ = .ok (.invalidResponseCode6To7 0 0 0 0 1 0 0) ∧
  decode ⟨.vector, 0b000_0_0001_0001_1111#16⟩ = .ok (.invalidResponseCode8To15 0 1 0 0 0 1 7)

/-- Decoding the encoding of a well-formed operation gives it back, with every operand at every value that well-formedness
leaves it (R68, R76). The model's choices are the form beside the bits (log entry 3) and, for a vector that matches two
INVALID_FIELD_VALUE rows, which row reads it (log entry 5): a response_code row with an opcode of 3 to 15 is not
well-formed and its vector reads as an opcode row. Such a term still runs (InvalidRowsRaise, PortRowsAreEncodeRaw). -/
def Obligations.DecodeEncodeRoundTrip : Prop :=
  ∀ i : Instr, i.wellFormed = true → decode (encode i) = .ok i

/-- Each evaluation has one meaning: what is read is well-formed and encodes to exactly what was read (R68, R76). The
model's choices are that the first matching row reads a vector, which is what well-formed means here (log entry 5), and
that an evaluation is a form beside a word with nothing above the input vector, all of which the encoding gives back
(log entry 3). -/
def Obligations.EncodeDecodeRoundTrip : Prop :=
  ∀ (e : Evaluation) (i : Instr), decode e = .ok i → i.wellFormed = true ∧ encode i = e

/-- R76: each (mask, match) pair picks out its illegal case, an input vector is illegal exactly when it matches one of
the five, the INVALID_FIELD_VALUE rows take precedence over ENCODE_RAW, and every word produced has bits 6 to 4 clear
(`output_match` 0x0000, `output_mask` 0x0070). -/
def Obligations.IllegalExactlyWhenARowMatches : Prop :=
  (∀ p : Ports,
    let iv := vectorOfPorts p
    (iv &&& 0x0F00 = 0x0300 ↔ p.opcode.toNat = 3) ∧
    (iv &&& 0x0C00 = 0x0400 ↔ 4 ≤ p.opcode.toNat ∧ p.opcode.toNat ≤ 7) ∧
    (iv &&& 0x0800 = 0x0800 ↔ 8 ≤ p.opcode.toNat) ∧
    (iv &&& 0x000E = 0x0006 ↔ p.responseCode.toNat = 6 ∨ p.responseCode.toNat = 7) ∧
    (iv &&& 0x0008 = 0x0008 ↔ 8 ≤ p.responseCode.toNat)) ∧
  (∀ v : InputVector,
    (invalidRows.any fun row => v &&& row.1 == row.2) = true ↔
      (portsOfVector v).opcode.toNat > 2 ∨ (portsOfVector v).responseCode.toNat > 5) ∧
  (∀ v : InputVector,
    decodeVector v = .encodeRaw (portsOfVector v) ↔
      (portsOfVector v).opcode.toNat ≤ 2 ∧ (portsOfVector v).responseCode.toNat ≤ 5) ∧
  (∀ f : Flags, encodeWord f &&& 0x0070 = 0x0000)

/-- R71: which vectors name no variant, what becomes of them at each level, and how many there are. The model's choices
are that a record whose code names no variant is rejected by the name `unrepresentable` (log entry 3) and which row
reads a vector that matches two (log entry 5); that the error is a next state is the model's inference (log entry 6).
The operations run here are those the decoder gives, the well-formed INVALID_FIELD_VALUE rows. -/
def Obligations.IllegalVectorsCounted : Prop :=
  (∀ v : InputVector,
    (3 ≤ (portsOfVector v).opcode.toNat ∨ 6 ≤ (portsOfVector v).responseCode.toNat) →
      recordOfPorts (portsOfVector v) = none ∧
      decode ⟨.record, wordOfVector v⟩ = .error .unrepresentable ∧
      ∀ s : State, ∃ i t, decode ⟨.vector, wordOfVector v⟩ = .ok i ∧ exec i s = .next t ∧
        t.outputs = .invalidFieldValue) ∧
  ((List.range 8192).countP fun n => (recordOfPorts (portsOfVector (BitVec.ofNat 13 n))).isSome) = 576 ∧
  ((List.range 8192).countP fun n => (recordOfPorts (portsOfVector (BitVec.ofNat 13 n))).isNone) = 7616

/-! ### ENCODE -/

/-- R101 to R107: the seven steps, with the contribution of each field, run by ENCODE from any state, in any state the
same. That the pending list is left alone is the model's own (log entry 1). -/
def Obligations.EncodeRunsTheSevenSteps : Prop :=
  (∀ (f : Flags) (s : State),
    ∃ t, exec (.encode f) s = .next t ∧ t.ports = s.ports ∧ t.pending = s.pending ∧ invalidFieldValuePort t = 0 ∧
      flagsPort t =
        (let acc : Word := 0x0000
         let acc := acc ||| (f.messageType.code.setWidth 16 <<< 15)
         let acc := acc ||| (f.opcode.code.setWidth 16 <<< 11)
         let acc := if f.authoritative then acc ||| (1 <<< 10) else acc
         let acc := if f.truncated then acc ||| (1 <<< 9) else acc
         let acc := if f.recursionDesired then acc ||| (1 <<< 8) else acc
         let acc := if f.recursionAvailable then acc ||| (1 <<< 7) else acc
         let acc := acc &&& 0b1111_1111_1000_1111
         acc ||| f.responseCode.code.setWidth 16)) ∧
  (placeMessageType (MessageType.query.code.setWidth 16) = 0 ∧
    placeMessageType (MessageType.response.code.setWidth 16) = 0x8000) ∧
  (placeOpcode (Opcode.query.code.setWidth 16) = 0 ∧ placeOpcode (Opcode.iquery.code.setWidth 16) = 0x0800 ∧
    placeOpcode (Opcode.status.code.setWidth 16) = 0x1000) ∧
  ([placeSwitch shiftAuthoritative true, placeSwitch shiftTruncated true, placeSwitch shiftRecursionDesired true,
      placeSwitch shiftRecursionAvailable true] = [0x0400, 0x0200, 0x0100, 0x0080] ∧
    ∀ k : Nat, placeSwitch k false = 0) ∧
  (∀ r : ResponseCode, r.code.getLsbD 3 = false)

/-- R108: the closed forms of ENCODE: by shifts and OR, by concatenation, and by addition. -/
def Obligations.EncodeClosedForms : Prop :=
  ∀ f : Flags,
    let p := portsOfRecord f
    let shifted : Word → Nat → Word := fun x k => x <<< k
    encodeWord f =
      shifted (p.messageType.setWidth 16) 15 ||| shifted (p.opcode.setWidth 16) 11
        ||| shifted (p.authoritative.setWidth 16) 10 ||| shifted (p.truncated.setWidth 16) 9
        ||| shifted (p.recursionDesired.setWidth 16) 8 ||| shifted (p.recursionAvailable.setWidth 16) 7
        ||| p.responseCode.setWidth 16 ∧
    encodeWord f =
      (p.messageType ++ p.opcode ++ p.authoritative ++ p.truncated ++ p.recursionDesired ++ p.recursionAvailable
        ++ 0b000#3 ++ p.responseCode).cast rfl ∧
    encodeWord f =
      shifted (p.messageType.setWidth 16) 15 + shifted (p.opcode.setWidth 16) 11
        + shifted (p.authoritative.setWidth 16) 10 + shifted (p.truncated.setWidth 16) 9
        + shifted (p.recursionDesired.setWidth 16) 8 + shifted (p.recursionAvailable.setWidth 16) 7
        + p.responseCode.setWidth 16

/-- R100's corner cases and worked example: the least and the largest word, and scenario S8. -/
def Obligations.EncodeCornerCases : Prop :=
  encodeWord ⟨.query, .query, false, false, false, false, .noError⟩ = 0x0000 ∧
  encodeWord ⟨.response, .iquery, true, true, true, true, .refused⟩ = 0x8F85 ∧
  encodeWord ⟨.response, .status, true, true, true, true, .refused⟩ = 0x9785 ∧
  ∀ f : Flags, (encodeWord f).toNat ≤ 0x9785

/-- R112: injectivity and determinism, every field recoverable from its own range, 576 distinct words. -/
def Obligations.EncodeInjective : Prop :=
  (∀ (f g : Flags) (s s' : State), ∃ t t',
    exec (.encode f) s = .next t ∧ exec (.encode g) s' = .next t' ∧ (flagsPort t = flagsPort t' ↔ f = g)) ∧
  (∀ f : Flags, recordOfPorts (fieldsOfWord (encodeWord f)) = some f) ∧
  (Set.range encodeWord).ncard = 576

/-- R113: toggling one switch flips exactly its own bit of the word. -/
def Obligations.SwitchesAreIsolated : Prop :=
  ∀ f : Flags,
    encodeWord { f with authoritative := !f.authoritative } = encodeWord f ^^^ (1 <<< 10) ∧
    encodeWord { f with truncated := !f.truncated } = encodeWord f ^^^ (1 <<< 9) ∧
    encodeWord { f with recursionDesired := !f.recursionDesired } = encodeWord f ^^^ (1 <<< 8) ∧
    encodeWord { f with recursionAvailable := !f.recursionAvailable } = encodeWord f ^^^ (1 <<< 7)

/-- R114: bit 15 and bits 10 to 0 do not depend on the opcode; bits 15 to 4 do not depend on the response code. -/
def Obligations.FourBitFieldsAreIsolated : Prop :=
  (∀ (f : Flags) (o : Opcode) (k : Nat), ¬(11 ≤ k ∧ k ≤ 14) →
    (encodeWord { f with opcode := o }).getLsbD k = (encodeWord f).getLsbD k) ∧
  (∀ (f : Flags) (r : ResponseCode) (k : Nat), 4 ≤ k →
    (encodeWord { f with responseCode := r }).getLsbD k = (encodeWord f).getLsbD k)

/-- R109: before step 5 only bits 15, 14 to 11 and 10 to 7 can be set, so the mask changes nothing on a record, and
driving bits 6 to 4 to constant 0 gives the same word. -/
def Obligations.MaskIsNoOpOnRecords : Prop :=
  ∀ f : Flags,
    let acc := accumulate (f.messageType.code.setWidth 16) (f.opcode.code.setWidth 16) f.authoritative f.truncated
      f.recursionDesired f.recursionAvailable
    (∀ k : Nat, acc.getLsbD k = true → k = 15 ∨ (11 ≤ k ∧ k ≤ 14) ∨ (7 ≤ k ∧ k ≤ 10)) ∧
    maskReserved acc = acc ∧
    maskReserved acc = (acc.extractLsb' 7 9 ++ 0b000#3 ++ acc.extractLsb' 0 4).cast rfl

/-- R110: for a 4-bit response code, masking before or after it is OR'd in gives the same word, whatever the
accumulator holds. -/
def Obligations.MaskOrderIsIrrelevant : Prop :=
  ∀ (acc : Word) (rc : Nibble),
    addResponseCode (rc.setWidth 16) (maskReserved acc) = maskReserved (addResponseCode (rc.setWidth 16) acc)

/-- R67 and R30: for every code a port can carry no bit is shifted out, and the contributions never overlap: together
with the reserved bits they fill the sixteen bits. -/
def Obligations.ContributionsAreDisjoint : Prop :=
  (∀ c : Bit, placeMessageType (c.setWidth 16) >>> 15 = c.setWidth 16) ∧
  (∀ c : Nibble, placeOpcode (c.setWidth 16) >>> 11 = c.setWidth 16) ∧
  (∀ (mt : Bit) (op rc : Nibble) (aa tc rd ra : Bool),
    List.Pairwise (fun x y : Word => x &&& y = 0)
      [placeMessageType (mt.setWidth 16), placeOpcode (op.setWidth 16), placeSwitch shiftAuthoritative aa,
        placeSwitch shiftTruncated tc, placeSwitch shiftRecursionDesired rd, placeSwitch shiftRecursionAvailable ra,
        ~~~reservedMask, placeResponseCode (rc.setWidth 16)]) ∧
  ([placeMessageType 1, placeOpcode 15, placeSwitch shiftAuthoritative true, placeSwitch shiftTruncated true,
      placeSwitch shiftRecursionDesired true, placeSwitch shiftRecursionAvailable true, ~~~reservedMask,
      placeResponseCode 15].foldl (· ||| ·) 0 = 0xFFFF)

/-- R120: no check of meaning: any combination of fields encodes as given, the odd ones among them. -/
def Obligations.NoSemanticChecks : Prop :=
  (∀ (f : Flags) (s : State), ∃ t, exec (.encode f) s = .next t ∧
    fieldsOfWord (flagsPort t) = portsOfRecord f ∧ wordReserved (flagsPort t) = 0) ∧
  (∀ s : State, ∃ t, exec (.encode ⟨.query, .query, true, false, false, false, .noError⟩) s = .next t ∧
    flagsPort t = 0x0400) ∧
  (∀ s : State, ∃ t, exec (.encode ⟨.query, .query, false, false, false, false, .nxDomain⟩) s = .next t ∧
    flagsPort t = 0x0003)

/-- R115: what a code wider than its field would do to the steps: the vectors X1 to X4. -/
def Obligations.WideCodesWouldCollide : Prop :=
  composeWord 0 16 false false false false 0 = 0x8000 ∧
  composeWord 0 31 false false false false 0 = 0xF800 ∧
  composeWord 0 0 false false false false 16 = 0x0010 ∧
  composeWord 0 0 false false false false 255 = 0x00FF

/-! ### ENCODE_RAW and the error -/

/-- R130, R133: the check, then the word of the record the codes name; or the error, `flags` 0x0000 and not to be used.
That the error is a next state is the model's inference (log entry 6), and the pending list left alone is the model's
own (log entry 1). -/
def Obligations.EncodeRawChecksThenEncodes : Prop :=
  (∀ (p : Ports) (s : State), p.opcode.toNat > 2 ∨ p.responseCode.toNat > 5 →
    ∃ t, exec (.encodeRaw p) s = .next t ∧ t.ports = s.ports ∧ t.pending = s.pending ∧
      t.outputs = .invalidFieldValue ∧ invalidFieldValuePort t = 1 ∧ flagsPort t = 0x0000 ∧
      flagsUsable t = false) ∧
  (∀ (p : Ports) (s : State), p.opcode.toNat ≤ 2 → p.responseCode.toNat ≤ 5 →
    ∃ t f, exec (.encodeRaw p) s = .next t ∧ t.ports = s.ports ∧ t.pending = s.pending ∧
      f.messageType.code = p.messageType ∧ f.opcode.code = p.opcode ∧
      f.authoritative = (p.authoritative == 1) ∧ f.truncated = (p.truncated == 1) ∧
      f.recursionDesired = (p.recursionDesired == 1) ∧ f.recursionAvailable = (p.recursionAvailable == 1) ∧
      f.responseCode.code = p.responseCode ∧
      t.outputs = .word (encodeWord f) ∧ invalidFieldValuePort t = 0 ∧ flagsPort t = encodeWord f ∧
      flagsUsable t = true) ∧
  (∀ s : State, ∃ t, exec (.encodeRaw (portsOfVector 0x11F5)) s = .next t ∧ flagsPort t = 0x8F85 ∧
    invalidFieldValuePort t = 0) ∧
  (∀ s : State, ∃ t, exec (.encodeRaw (portsOfVector 0x0300)) s = .next t ∧ flagsPort t = 0x0000 ∧
    invalidFieldValuePort t = 1)

/-- R132: the defined ranges are the variant sets, and the error output is both lines of the rule. That ENCODE_RAW answers
a next state for an out-of-range code too is the model's inference (log entry 6). -/
def Obligations.ErrorBitEquations : Prop :=
  (∀ c : Nibble, (∃ o : Opcode, o.code = c) ↔ c.toNat ≤ 2) ∧
  (∀ c : Nibble, (∃ r : ResponseCode, r.code = c) ↔ c.toNat ≤ 5) ∧
  (∀ c : Bit, ∃ m : MessageType, m.code = c) ∧
  (∀ (p : Ports) (s : State), ∃ t, exec (.encodeRaw p) s = .next t ∧
    (invalidFieldValuePort t = 1 ↔ p.opcode.toNat > 2 ∨ p.responseCode.toNat > 5) ∧
    invalidFieldValuePort t =
      (let op : Nat → Bit := fun k => p.opcode.extractLsb' k 1
       let rc : Nat → Bit := fun k => p.responseCode.extractLsb' k 1
       op 3 ||| op 2 ||| (op 1 &&& op 0) ||| rc 3 ||| (rc 2 &&& rc 1)) ∧
    invalidFieldValuePort t = BitVec.ofBool (fieldOutOfRangeGates p))

/-- R136, R138: the switches and message_type never raise: the error depends on the two 4-bit codes alone. That ENCODE_RAW
answers a next state for an out-of-range code too is the model's inference (log entry 6). -/
def Obligations.SwitchesAndMessageTypeNeverRaise : Prop :=
  ∀ (p q : Ports) (s : State), p.opcode = q.opcode → p.responseCode = q.responseCode →
    ∃ t u, exec (.encodeRaw p) s = .next t ∧ exec (.encodeRaw q) s = .next u ∧
      invalidFieldValuePort t = invalidFieldValuePort u

/-- R137: one error, no field identity, no priority: any two invalid inputs end in the same state. That the error is a
next state is the model's inference (log entry 6). -/
def Obligations.OneErrorWithoutFieldIdentity : Prop :=
  ∀ (p q : Ports) (s : State), p.opcode.toNat > 2 ∨ p.responseCode.toNat > 5 →
    q.opcode.toNat > 2 ∨ q.responseCode.toNat > 5 →
    ∃ t, exec (.encodeRaw p) s = .next t ∧ exec (.encodeRaw q) s = .next t ∧ invalidFieldValuePort t = 1

/-- R134, R70: ENCODE_RAW agrees with ENCODE on the record the codes name, and the word is the input vector with three
zero bits inserted above bit 3 (R69). -/
def Obligations.EncodeRawAgreesWithEncode : Prop :=
  (∀ (f : Flags) (s : State), exec (.encodeRaw (portsOfRecord f)) s = exec (.encode f) s) ∧
  (∀ (p : Ports) (s : State), p.opcode.toNat ≤ 2 → p.responseCode.toNat ≤ 5 →
    ∃ t, exec (.encodeRaw p) s = .next t ∧ invalidFieldValuePort t = 0 ∧
      flagsPort t =
        ((vectorOfPorts p).extractLsb' 4 9 ++ 0b000#3 ++ (vectorOfPorts p).extractLsb' 0 4).cast rfl)

/-- The five INVALID_FIELD_VALUE rows raise the error in every state and with every value of their free bits, the terms
that are not well-formed among them, and change nothing else (R132, R133, R155). That the error is a next state is the
model's inference (log entry 6), and the pending list left alone is the model's own (log entry 1). -/
def Obligations.InvalidRowsRaise : Prop :=
  ∀ (mt aa tc rd ra : Bit) (op rc : Nibble) (lo1 : Bit) (lo2 : BitVec 2) (lo3 : BitVec 3) (s : State) (i : Instr),
    i ∈ [.invalidOpcode3 mt aa tc rd ra rc, .invalidOpcode4To7 mt lo2 aa tc rd ra rc,
        .invalidOpcode8To15 mt lo3 aa tc rd ra rc, .invalidResponseCode6To7 mt op aa tc rd ra lo1,
        .invalidResponseCode8To15 mt op aa tc rd ra lo3] →
    ∃ t, exec i s = .next t ∧ invalidFieldValuePort t = 1 ∧ flagsPort t = 0x0000 ∧ t.outputs = .invalidFieldValue ∧
      t.ports = s.ports ∧ t.pending = s.pending

/-- Every port-level row has the effect ENCODE_RAW has on the same ports (R70: one operation; R76). -/
def Obligations.PortRowsAreEncodeRaw : Prop :=
  ∀ (i : Instr) (s : State), formOfInstr i = .vector → exec i s = exec (.encodeRaw (portsOfInstr i)) s

/-! ### The step -/

/-- A step with an evaluation pending runs what it decodes to (R20: one step is one evaluation; R183). The list of pending
evaluations, that a step takes the oldest off it, and that its bits are then on the ports are the model's own, not the
spec's (log entries 1, 11 and 13). -/
def Obligations.StepRunsThePendingEvaluation : Prop :=
  ∀ (s : State) (e : Evaluation) (rest : List Evaluation) (i : Instr), s.pending = e :: rest → decode e = .ok i →
    step s = exec i { s with ports := portsOfVector (vectorOfWord e.word), pending := rest }

/-- A step with nothing pending runs what the held inputs decode to (R70, R183). That a step then evaluates them at the
port level is the model's inference (log entry 10); the pending list is the model's own (log entry 1). -/
def Obligations.StepRunsTheHeldInputs : Prop :=
  ∀ (s : State) (i : Instr), s.pending = [] → decode (heldEvaluation s.ports) = .ok i → step s = exec i s

/-- Presenting the encoding of a well-formed operation makes the next step run exactly that operation, its ports driven;
an opcode-table word is presented so by `withFetchWord` (R68, R76). The pending list is the model's own
(log entry 1), and its choices are the evaluation as a form beside a word (log entry 3), the port-level reading of an opcode-table word (log entry 4), what well-formed means for a
vector that matches two rows (log entry 5), and `withFetchWord` as the caller's presenting (log entry 11); that
presenting drives the ports is its inference (log entry 13). -/
def Obligations.StepRunsTheEncodedOperation : Prop :=
  (∀ (s : State) (i : Instr) (rest : List Evaluation), i.wellFormed = true → s.pending = encode i :: rest →
    step s = exec i { s with ports := portsOfInstr i, pending := rest }) ∧
  (∀ (s : State) (nbits w : Nat) (i : Instr), decodeTableWord nbits w = some i →
    step (s.withFetchWord nbits w) = exec i { s with ports := portsOfInstr i })

/-- The block at its ports: one step on any 13-bit input vector, from any state, ends in the error exactly on an
out-of-range code, else in the vector with three zero bits inserted (R69, R130, R132, R134). The pending list and the
bits then standing on the ports are the model's own (log entries 1 and 13), as is the vector form beside the bits
(log entry 3); that the error is a next state is its inference (log entry 6). -/
def Obligations.PortLevelStep : Prop :=
  ∀ (s : State) (v : InputVector) (rest : List Evaluation), s.pending = ⟨.vector, wordOfVector v⟩ :: rest →
    step s = .next
      { ports := portsOfVector v
        outputs :=
          if (v.extractLsb' 8 4).toNat > 2 ∨ (v.extractLsb' 0 4).toNat > 5 then .invalidFieldValue
          else .word ((v.extractLsb' 4 9 ++ 0b000#3 ++ v.extractLsb' 0 4).cast rfl)
        pending := rest }

/-- The typed level: one step on any record, from any state, ends in its word in the layout FLAGS16 (R65, R100). The
pending list, the record form beside the bits, and the record's codes on the ports are the model's own (log entries 1,
3 and 13). -/
def Obligations.RecordLevelStep : Prop :=
  ∀ (s : State) (f : Flags) (rest : List Evaluation),
    s.pending = ⟨.record, wordOfVector (vectorOfPorts (portsOfRecord f))⟩ :: rest →
    step s = .next
      { ports := portsOfRecord f
        outputs := .word (flags16 (portsOfRecord f))
        pending := rest }

/-- Only what is no evaluation is refused: a bit that drives no port, or a record whose code names no variant (R71, R73).
All else answers a next state (R151). What is refused is the model's choice (log entry 3), as is the pending list (log
entry 1); that the error and the held inputs give next states is its inference (log entries 6 and 10). -/
def Obligations.OnlyNonEvaluationsAreRefused : Prop :=
  ∀ s : State,
    (∃ t, step s = .next t) ∨
    (∃ e rest, s.pending = e :: rest ∧ setsNoSuchPort e.word = true ∧
      step s = .refused (.notAnEvaluation .noSuchPort)) ∨
    (∃ e rest, s.pending = e :: rest ∧ setsNoSuchPort e.word = false ∧ e.form = .record ∧
      recordOfPorts (portsOfVector (vectorOfWord e.word)) = none ∧
      step s = .refused (.notAnEvaluation .unrepresentable))

/-- Every operation completes in every state and changes the outputs alone: no operation writes the inputs (R31), the
outputs are the function of the operation and not of the state (R20, R36), and the error too is an outcome of the
evaluation after which the block goes on (R150, R152). That the error is a next state is the model's inference (log
entry 6), and the pending list left alone is the model's own (log entry 1). -/
def Obligations.OperationsWriteOnlyTheOutputs : Prop :=
  ∀ (i : Instr) (s : State), ∃ r, exec i s = .next { s with outputs := r } ∧
    ∀ s' : State, exec i s' = .next { s' with outputs := r }

/-! ### Invariants and whole-machine rules -/

/-- The state after reset, with the outputs the function of the inputs (R37, R180). That the inputs are all zero and
nothing is pending is the model's choice (log entry 2). -/
def Obligations.ResetOutputsMatchInputs : Prop :=
  OutputsMatchInputs State.reset ∧ ReservedBitsZero State.reset ∧
  State.reset.ports = portsOfVector 0 ∧ State.reset.pending = [] ∧
  flagsPort State.reset = 0x0000 ∧ invalidFieldValuePort State.reset = 0

/-- Every step leaves the outputs the function of the inputs then on the ports, and keeps the reserved bits of the
`flags` output 0 (R37, R66, R183). Which inputs are on the ports after a step is the model's own (log entries 10
and 13); that the error is a next state is its inference (log entry 6). -/
def Obligations.StepKeepsOutputsMatchInputs : Prop :=
  ∀ s s' : State, OutputsMatchInputs s ∧ ReservedBitsZero s → step s = .next s' →
    OutputsMatchInputs s' ∧ ReservedBitsZero s'

/-- R66, R111: bits 6 to 4 are 0 in every word the block produces, from any state, and while the error is raised. -/
def Obligations.ReservedBitsAlwaysZero : Prop :=
  (∀ f : Flags, (encodeWord f).getLsbD 6 = false ∧ (encodeWord f).getLsbD 5 = false ∧
    (encodeWord f).getLsbD 4 = false) ∧
  (∀ s t : State, step s = .next t →
    ((flagsPort t).getLsbD 6 = false ∧ (flagsPort t).getLsbD 5 = false ∧ (flagsPort t).getLsbD 4 = false) ∧
    (invalidFieldValuePort t = 1 → flagsPort t = 0x0000))

/-- R183, R47: while the inputs are held the outputs keep their value: the step changes nothing. That a step with nothing
pending evaluates the held inputs, and that the error is a next state, are the model's inferences (log entries 10 and
6); the pending list is the model's own (log entry 1). -/
def Obligations.HeldInputsKeepTheOutputs : Prop :=
  ∀ s : State, s.pending = [] → OutputsMatchInputs s → step s = .next s

/-- R36, R21: nothing of an earlier evaluation reaches a later one: two machines that differ in everything but the next
evaluation end with the same outputs. The pending list (log entry 1), the refusal of what is no evaluation (log entry 3)
and the same bits on the ports afterwards (log entry 13) are the model's own. With nothing pending, StepRunsTheHeldInputs
and OperationsWriteOnlyTheOutputs say the same of the held inputs. -/
def Obligations.NoHiddenHistory : Prop :=
  ∀ (s s' : State) (e : Evaluation) (rest rest' : List Evaluation), s.pending = e :: rest → s'.pending = e :: rest' →
    (∀ t, step s = .next t → ∃ t', step s' = .next t' ∧ t'.outputs = t.outputs ∧ t'.ports = t.ports) ∧
    (∀ why, step s = .refused why → step s' = .refused why)

/-- R152: after an evaluation that raises the error, a valid one gives its word and no error, and the same invalid inputs
raise it again (R135). That the error is a next state (log entry 6) and that a step with nothing pending evaluates the
held inputs (log entry 10) are the model's inferences; the pending list, the vector form and the driven ports are its own
(log entries 1, 3 and 13). -/
def Obligations.ErrorIsNotSticky : Prop :=
  ∀ (s : State) (bad : InputVector) (f : Flags) (rest : List Evaluation),
    (bad.extractLsb' 8 4).toNat > 2 ∨ (bad.extractLsb' 0 4).toNat > 5 →
    (s.pending = ⟨.vector, wordOfVector bad⟩ :: ⟨.vector, wordOfVector (vectorOfPorts (portsOfRecord f))⟩ :: rest →
      ∃ t u, step s = .next t ∧ invalidFieldValuePort t = 1 ∧ step t = .next u ∧ invalidFieldValuePort u = 0 ∧
        flagsPort u = encodeWord f ∧ u.pending = rest) ∧
    (s.pending = [⟨.vector, wordOfVector bad⟩] →
      ∃ t, step s = .next t ∧ invalidFieldValuePort t = 1 ∧ step t = .next t)

/-! ### The consumer's bytes -/

/-- The bytes of the serialised word and what a byte-wide reader sees in each are R41's and R43's. The model's own are the
pure list in place of the consumer's store and the header address as any natural number (log entry 12: DESIGN CHOICE,
unsafe for a buffer at the top of an address space). -/
def Obligations.SerialisedBytes : Prop :=
  ∀ (h : Nat) (f : Flags),
    let p := portsOfRecord f
    serialise h (encodeWord f) =
      [(h + 2, (p.messageType ++ p.opcode ++ p.authoritative ++ p.truncated ++ p.recursionDesired).cast rfl),
        (h + 3, (p.recursionAvailable ++ 0b000#3 ++ p.responseCode).cast rfl)]
end

