-- ==== Sys2Proof/Laws/Decode.lean ====
section
/-!
SUPPORT. The small lemmas of the codes, the records, the ports and the input vector.
-/

namespace Sys2Proof

@[simp] theorem messageTypeOfCode_code (m : MessageType) : messageTypeOfCode m.code = m := by cases m <;> rfl
@[simp] theorem opcodeOfCode_code (o : Opcode) : opcodeOfCode o.code = some o := by cases o <;> rfl
@[simp] theorem responseCodeOfCode_code (r : ResponseCode) : responseCodeOfCode r.code = some r := by cases r <;> rfl
@[simp] theorem boolOfBit_bitOfBool (b : Bool) : boolOfBit (bitOfBool b) = b := by cases b <;> rfl

theorem code_messageTypeOfCode (c : Bit) : (messageTypeOfCode c).code = c := by revert c; decide
theorem bitOfBool_boolOfBit (b : Bit) : bitOfBool (boolOfBit b) = b := by revert b; decide

/-- A code that names a variant is that variant's code. -/
theorem code_of_opcodeOfCode {c : Nibble} {o : Opcode} (h : opcodeOfCode c = some o) : o.code = c := by
  revert c o; intro c o; cases o <;> revert c <;> decide

theorem code_of_responseCodeOfCode {c : Nibble} {r : ResponseCode} (h : responseCodeOfCode c = some r) :
    r.code = c := by
  revert c r; intro c r; cases r <;> revert c <;> decide

/-- R132: a code names an Opcode exactly when it is 0 to 2. -/
theorem opcodeOfCode_isSome (c : Nibble) : (opcodeOfCode c).isSome = opcodeInRange c := by revert c; decide

/-- R132: a code names a ResponseCode exactly when it is 0 to 5. -/
theorem responseCodeOfCode_isSome (c : Nibble) : (responseCodeOfCode c).isSome = responseCodeInRange c := by
  revert c; decide

@[simp] theorem recordOfPorts_portsOfRecord (f : Flags) : recordOfPorts (portsOfRecord f) = some f := by
  simp [recordOfPorts, portsOfRecord]

/-- The record the ports name has exactly the codes on the ports. -/
theorem portsOfRecord_of_recordOfPorts {p : Ports} {f : Flags} (h : recordOfPorts p = some f) :
    portsOfRecord f = p := by
  unfold recordOfPorts at h
  split at h
  · next op rc hop hrc =>
    cases h
    simp [portsOfRecord, code_messageTypeOfCode, bitOfBool_boolOfBit, code_of_opcodeOfCode hop,
      code_of_responseCodeOfCode hrc]
  · cases h

/-- The ports name a record exactly when both 4-bit codes are in range. -/
theorem recordOfPorts_isSome (p : Ports) :
    (recordOfPorts p).isSome = (opcodeInRange p.opcode && responseCodeInRange p.responseCode) := by
  rw [← opcodeOfCode_isSome, ← responseCodeOfCode_isSome]
  unfold recordOfPorts
  cases opcodeOfCode p.opcode <;> cases responseCodeOfCode p.responseCode <;> rfl

@[simp] theorem portsOfVector_vectorOfPorts (p : Ports) : portsOfVector (vectorOfPorts p) = p := by
  obtain ⟨mt, op, aa, tc, rd, ra, rc⟩ := p
  simp only [portsOfVector, vectorOfPorts, Ports.mk.injEq]
  refine ⟨?_, ?_, ?_, ?_, ?_, ?_, ?_⟩ <;>
  · ext i hi
    simp only [BitVec.getElem_extractLsb', BitVec.getLsbD_cast, BitVec.getLsbD_append]
    interval_cases i <;> simp

@[simp] theorem vectorOfPorts_portsOfVector (v : InputVector) : vectorOfPorts (portsOfVector v) = v := by
  apply BitVec.eq_of_getLsbD_eq
  intro i hi
  simp only [portsOfVector, vectorOfPorts, BitVec.getLsbD_cast, BitVec.getLsbD_append, BitVec.getLsbD_extractLsb']
  interval_cases i <;> simp

theorem vectorOfPorts_injective {p q : Ports} (h : vectorOfPorts p = vectorOfPorts q) : p = q := by
  rw [← portsOfVector_vectorOfPorts p, h, portsOfVector_vectorOfPorts]

@[simp] theorem vectorOfWord_wordOfVector (v : InputVector) : vectorOfWord (wordOfVector v) = v := by
  simp [vectorOfWord, wordOfVector]

@[simp] theorem setsNoSuchPort_wordOfVector (v : InputVector) : setsNoSuchPort (wordOfVector v) = false := by
  have h : (wordOfVector v) >>> 13 = 0 := by ext i hi; simp [wordOfVector]
  simp [setsNoSuchPort, h]

/-- A word that sets no bit above the input vector is the word of its input vector. -/
theorem wordOfVector_vectorOfWord {w : Word} (h : setsNoSuchPort w = false) : wordOfVector (vectorOfWord w) = w := by
  have h0 : w.toNat >>> 13 = 0 := by simpa [setsNoSuchPort, ← BitVec.toNat_inj] using h
  have h1 : w.toNat < 8192 := by simpa [Nat.shiftRight_eq_div_pow] using h0
  apply BitVec.eq_of_toNat_eq
  simp [wordOfVector, vectorOfWord]
  omega

end Sys2Proof
end

