-- ==== Sys2Proof/Laws/State.lean ====
section
/-!
SUPPORT. One lemma per field per named update of State, and the output ports after an update.
-/

namespace Sys2Proof.Machine

@[simp] theorem driveOutputs_outputs (r : EvalResult) (s : State) : (driveOutputs r s).outputs = r := rfl
@[simp] theorem driveOutputs_ports (r : EvalResult) (s : State) : (driveOutputs r s).ports = s.ports := rfl
@[simp] theorem driveOutputs_pending (r : EvalResult) (s : State) : (driveOutputs r s).pending = s.pending := rfl

@[simp] theorem drivePorts_outputs (p : Ports) (s : State) : (drivePorts p s).outputs = s.outputs := rfl
@[simp] theorem drivePorts_ports (p : Ports) (s : State) : (drivePorts p s).ports = p := rfl
@[simp] theorem drivePorts_pending (p : Ports) (s : State) : (drivePorts p s).pending = s.pending := rfl

@[simp] theorem setPending_outputs (l : List Evaluation) (s : State) : (setPending l s).outputs = s.outputs := rfl
@[simp] theorem setPending_ports (l : List Evaluation) (s : State) : (setPending l s).ports = s.ports := rfl
@[simp] theorem setPending_pending (l : List Evaluation) (s : State) : (setPending l s).pending = l := rfl

@[simp] theorem present_outputs (e : Evaluation) (s : State) : (present e s).outputs = s.outputs := rfl
@[simp] theorem present_ports (e : Evaluation) (s : State) : (present e s).ports = s.ports := rfl
@[simp] theorem present_pending (e : Evaluation) (s : State) : (present e s).pending = e :: s.pending := rfl

@[simp] theorem driveOutputs_self (s : State) : driveOutputs s.outputs s = s := rfl

@[simp] theorem flagsPort_driveOutputs_word (w : Word) (s : State) : flagsPort (driveOutputs (.word w) s) = w := rfl
@[simp] theorem flagsPort_driveOutputs_error (s : State) :
    flagsPort (driveOutputs .invalidFieldValue s) = 0x0000 := rfl
@[simp] theorem invalidFieldValuePort_driveOutputs_word (w : Word) (s : State) :
    invalidFieldValuePort (driveOutputs (.word w) s) = 0 := rfl
@[simp] theorem invalidFieldValuePort_driveOutputs_error (s : State) :
    invalidFieldValuePort (driveOutputs .invalidFieldValue s) = 1 := rfl

end Sys2Proof.Machine
end

