-- ==== Sys2Proof/Laws/Ops.lean ====
section
/-!
SUPPORT. What each shared operation can do, once: the check and the record it lets through, the evaluation of the
ports, delivering and raising, and the next evaluation.
-/

namespace Sys2Proof.Machine

/-- The check of R132 in the terms of the code tables. -/
theorem fieldOutOfRange_eq (p : Ports) :
    fieldOutOfRange p = !(opcodeInRange p.opcode && responseCodeInRange p.responseCode) := by
  simp only [fieldOutOfRange, opcodeInRange, responseCodeInRange, Bool.not_and]
  congr 1 <;> simp only [← decide_not, not_le]

/-- The check turns away exactly the ports that name no record. -/
theorem recordOfPorts_eq_none_iff (p : Ports) : recordOfPorts p = none ↔ fieldOutOfRange p = true := by
  rw [fieldOutOfRange_eq, ← recordOfPorts_isSome]
  cases recordOfPorts p <;> simp

/-- Ports that name a record pass the check. -/
theorem fieldOutOfRange_of_record {p : Ports} {f : Flags} (h : recordOfPorts p = some f) :
    fieldOutOfRange p = false := by
  rw [fieldOutOfRange_eq, ← recordOfPorts_isSome, h]; rfl

theorem evaluatePorts_of_record {p : Ports} {f : Flags} (h : recordOfPorts p = some f) :
    evaluatePorts p = .word (encodeWord f) := by
  simp [evaluatePorts, fieldOutOfRange_of_record h, h]

theorem evaluatePorts_of_outOfRange {p : Ports} (h : fieldOutOfRange p = true) :
    evaluatePorts p = .invalidFieldValue := by
  simp [evaluatePorts, h]

/-- The evaluation of the ports is one of two cases: a record's word, or the error. -/
theorem evaluatePorts_cases (p : Ports) :
    (∃ f, recordOfPorts p = some f ∧ portsOfRecord f = p ∧ evaluatePorts p = .word (encodeWord f)) ∨
    (fieldOutOfRange p = true ∧ evaluatePorts p = .invalidFieldValue) := by
  cases h : recordOfPorts p with
  | some f => exact .inl ⟨f, rfl, portsOfRecord_of_recordOfPorts h, evaluatePorts_of_record h⟩
  | none =>
    have hr := (recordOfPorts_eq_none_iff p).1 h
    exact .inr ⟨hr, evaluatePorts_of_outOfRange hr⟩

@[simp] theorem deliver_eq (w : Word) (s : State) : deliver w s = .next (driveOutputs (.word w) s) := rfl

@[simp] theorem raiseInvalidFieldValue_eq (s : State) :
    raiseInvalidFieldValue s = .next (driveOutputs .invalidFieldValue s) := rfl

/-- ENCODE_RAW puts the evaluation of its ports on the outputs. -/
theorem execEncodeRaw_eq (p : Ports) (s : State) :
    execEncodeRaw p s = .next (driveOutputs (evaluatePorts p) s) := by
  unfold execEncodeRaw
  cases evaluatePorts p <;> rfl

theorem fetch_of_pending_nil {s : State} (h : s.pending = []) : fetch s = (heldEvaluation s.ports, s) := by
  simp [fetch, h]

theorem fetch_of_pending_cons {s : State} {e : Evaluation} {rest : List Evaluation} (h : s.pending = e :: rest) :
    fetch s = (e, drivePorts (portsOfVector (vectorOfWord e.word)) (setPending rest s)) := by
  simp [fetch, h]

/-- The evaluation of the held inputs always has a reading. -/
theorem decode_heldEvaluation (p : Ports) : decode (heldEvaluation p) = .ok (decodeVector (vectorOfPorts p)) := by
  simp [decode, heldEvaluation]

end Sys2Proof.Machine
end

