-- ==== Sys2Proof/Laws/PerInstr.lean ====
section
/-!
SUPPORT. Statements made for each operation as syntax. Family InputVectorWidth: the encoding of every operation drives
only the 13 bits of the input vector (30_encoding.md R68, R73), and they are the operation's ports.
-/

namespace Sys2Proof.Laws.InputVectorWidth

/-- The word of the operation sets no bit above the input vector, and its input vector drives the operation's ports. -/
def Statement (i : Instr) : Prop :=
  setsNoSuchPort (Sys2Proof.encode i).word = false ∧
    portsOfVector (vectorOfWord (Sys2Proof.encode i).word) = portsOfInstr i

/-- The fact does not depend on the operation: only on how a word holds a vector. -/
theorem of_vector (i : Instr) : Statement i := by simp [Statement, Sys2Proof.encode]

theorem encode (f : Flags) : Statement (.encode f) := of_vector _

theorem encodeRaw (p : Ports) : Statement (.encodeRaw p) := of_vector _

theorem invalidOpcode3 (mt aa tc rd ra : Bit) (rc : Nibble) : Statement (.invalidOpcode3 mt aa tc rd ra rc) :=
  of_vector _

theorem invalidOpcode4To7 (mt : Bit) (lo : BitVec 2) (aa tc rd ra : Bit) (rc : Nibble) :
    Statement (.invalidOpcode4To7 mt lo aa tc rd ra rc) :=
  of_vector _

theorem invalidOpcode8To15 (mt : Bit) (lo : BitVec 3) (aa tc rd ra : Bit) (rc : Nibble) :
    Statement (.invalidOpcode8To15 mt lo aa tc rd ra rc) :=
  of_vector _

theorem invalidResponseCode6To7 (mt : Bit) (op : Nibble) (aa tc rd ra : Bit) (lo : Bit) :
    Statement (.invalidResponseCode6To7 mt op aa tc rd ra lo) :=
  of_vector _

theorem invalidResponseCode8To15 (mt : Bit) (op : Nibble) (aa tc rd ra : Bit) (lo : BitVec 3) :
    Statement (.invalidResponseCode8To15 mt op aa tc rd ra lo) :=
  of_vector _

end Sys2Proof.Laws.InputVectorWidth
end

