-- ==== Sys2Proof/Tests/Slice0.lean ====
section
/-!
SUPPORT. The model's own tests: the well-formedness smoke, vectors written out from the spec's encodings, one or two
small theorems per operation with results from 95_test_vectors.md, and for each obligation with hypotheses a witness
that meets them together.
-/

namespace Sys2Proof.Tests

open Sys2Proof Sys2Proof.Machine

/-- The reset state with these evaluations pending. -/
def caller (l : List Evaluation) : State := setPending l State.reset

/-- An evaluation at the port level. -/
def raw (v : InputVector) : Evaluation := ⟨.vector, wordOfVector v⟩

/-- An evaluation of a record. -/
def record (v : InputVector) : Evaluation := ⟨.record, wordOfVector v⟩

/-- What an outcome leaves: the state, if there is one. -/
def next? : Host.Outcome State Fault Refusal → Option State
  | .next s => some s
  | .fault _ => none
  | .refused _ => none

/-- What the two output ports show after an outcome: `flags` and `invalid_field_value`. -/
def ports? (o : Host.Outcome State Fault Refusal) : Option (Word × Bit) :=
  (next? o).map fun s => (flagsPort s, invalidFieldValuePort s)

/-- Why a step was refused. -/
def refusal? : Host.Outcome State Fault Refusal → Option Refusal
  | .next _ => none
  | .fault _ => none
  | .refused r => some r

/-- Scenario S7 (95_test_vectors.md section 1). -/
def s7 : Flags := ⟨.query, .iquery, true, true, true, true, .refused⟩

/-! ### Well-formedness: an ill-formed term for each check -/

theorem test_wellFormed_refuses_encodeRaw_opcode :
    (Instr.encodeRaw ⟨0, 3, 0, 0, 0, 0, 0⟩).wellFormed = false := by decide

theorem test_wellFormed_refuses_encodeRaw_responseCode :
    (Instr.encodeRaw ⟨0, 0, 0, 0, 0, 0, 6⟩).wellFormed = false := by decide

theorem test_wellFormed_refuses_responseCode6To7_with_bad_opcode :
    (Instr.invalidResponseCode6To7 0 3 0 0 0 0 0).wellFormed = false := by decide

theorem test_wellFormed_refuses_responseCode8To15_with_bad_opcode :
    (Instr.invalidResponseCode8To15 0 15 0 0 0 0 7).wellFormed = false := by decide

/-! ### Decoding: vectors written out from R61 to R68 and R76 -/

/-- S8: Response, IQuery, all switches true, Refused. -/
theorem test_decode_encode :
    decode ⟨.record, 0b000_1_0001_1111_0101#16⟩ =
      .ok (.encode ⟨.response, .iquery, true, true, true, true, .refused⟩) := by decide

/-- W3: the largest valid vector. -/
theorem test_decode_encodeRaw :
    decode ⟨.vector, 0b000_1_0010_1111_0101#16⟩ = .ok (.encodeRaw ⟨1, 2, 1, 1, 1, 1, 5⟩) := by decide

/-- W11: opcode 3, response_code 4. -/
theorem test_decode_invalidOpcode3 :
    decode ⟨.vector, 0b000_0_0011_0000_0100#16⟩ = .ok (.invalidOpcode3 0 0 0 0 0 4) := by decide

/-- The boundaries of the row 4 to 7. -/
theorem test_decode_invalidOpcode4To7 :
    decode ⟨.vector, 0b000_1_0100_1000_0000#16⟩ = .ok (.invalidOpcode4To7 1 0 1 0 0 0 0) ∧
      decode ⟨.vector, 0b000_0_0111_0100_0000#16⟩ = .ok (.invalidOpcode4To7 0 3 0 1 0 0 0) := by decide

/-- W15 and W10: opcode 14, and every bit 1 (both fields bad: the first row in table order, log entry 5). -/
theorem test_decode_invalidOpcode8To15 :
    decode ⟨.vector, 0b000_0_1110_0000_0101#16⟩ = .ok (.invalidOpcode8To15 0 6 0 0 0 0 5) ∧
      decode ⟨.vector, 0b000_1_1111_1111_1111#16⟩ = .ok (.invalidOpcode8To15 1 7 1 1 1 1 15) := by decide

/-- W13: response_code 6. -/
theorem test_decode_invalidResponseCode6To7 :
    decode ⟨.vector, 0b000_0_0000_0010_0110#16⟩ = .ok (.invalidResponseCode6To7 0 0 0 0 1 0 0) := by decide

/-- W8: response_code 15. -/
theorem test_decode_invalidResponseCode8To15 :
    decode ⟨.vector, 0b000_0_0000_0000_1111#16⟩ = .ok (.invalidResponseCode8To15 0 0 0 0 0 0 7) := by decide

/-- R71: a record with a code that names no variant cannot be written. -/
theorem test_decode_rejects_unrepresentable_record :
    decode (record 0x0300) = .error .unrepresentable ∧ decode (record 0x0006) = .error .unrepresentable := by decide

/-- There are 13 input bits (R68, R73). -/
theorem test_decode_rejects_a_bit_above_the_vector :
    decode ⟨.vector, 0x2000⟩ = .error .noSuchPort ∧ decode ⟨.record, 0x8000⟩ = .error .noSuchPort := by decide

/-- The opcode table's five match values, each with the bits the table gives it. -/
theorem test_decodeTableWord_rows :
    decodeTableWord 16 768 = some (.invalidOpcode3 0 0 0 0 0 0) ∧
      decodeTableWord 16 1024 = some (.invalidOpcode4To7 0 0 0 0 0 0 0) ∧
      decodeTableWord 16 2048 = some (.invalidOpcode8To15 0 0 0 0 0 0 0) ∧
      decodeTableWord 8 6 = some (.invalidResponseCode6To7 0 0 0 0 0 0 0) ∧
      decodeTableWord 8 8 = some (.invalidResponseCode8To15 0 0 0 0 0 0 0) ∧
      decodeTableWord 16 0 = some (.encodeRaw ⟨0, 0, 0, 0, 0, 0, 0⟩) := by decide

/-! ### One step of each operation -/

/-- S1 to S8, the source's own words. -/
theorem test_encode_scenarios :
    [0x0000, 0x0100, 0x0105, 0x0185, 0x01C5, 0x01E5, 0x01F5, 0x11F5].map
        (fun v : InputVector => ports? (step (caller [record v]))) =
      [0b0000000000000000, 0b0000100000000000, 0b0000100000000101, 0b0000110000000101, 0b0000111000000101,
        0b0000111100000101, 0b0000111110000101, 0b1000111110000101].map (fun w : Word => some (w, 0)) := by decide

/-- 95_test_vectors.md 2.1: the accumulator of S8 before the mask, after it, and with the response code. -/
theorem test_encode_accumulator_of_S8 :
    accumulate 1 1 true true true true = 0x8F80 ∧ maskReserved 0x8F80 = 0x8F80 ∧
      addResponseCode 5 0x8F80 = 0x8F85 := by decide

/-- W2, W3, W4, W12: valid vectors. -/
theorem test_encodeRaw_valid :
    [0x0205, 0x12F5, 0x0104, 0x0025].map (fun v : InputVector => ports? (step (caller [raw v]))) =
      [0x1005, 0x9785, 0x0804, 0x0105].map (fun w : Word => some (w, 0)) := by decide

/-- W5, W7: the smallest invalid codes, run as ENCODE_RAW (R130). -/
theorem test_encodeRaw_error :
    ports? (exec (.encodeRaw (portsOfVector 0x0300)) State.reset) = some (0x0000, 1) ∧
      ports? (exec (.encodeRaw (portsOfVector 0x0006)) State.reset) = some (0x0000, 1) := by decide

/-- W5. -/
theorem test_invalidOpcode3 : ports? (step (caller [raw 0x0300])) = some (0x0000, 1) := by decide

/-- Opcode 7, with every other field valid and set. -/
theorem test_invalidOpcode4To7 : ports? (step (caller [raw 0x17F5])) = some (0x0000, 1) := by decide

/-- W14: nothing leaks to `flags`. -/
theorem test_invalidOpcode8To15 : ports? (step (caller [raw 0x1F85])) = some (0x0000, 1) := by decide

/-- W13. -/
theorem test_invalidResponseCode6To7 : ports? (step (caller [raw 0x0026])) = some (0x0000, 1) := by decide

/-- W8. -/
theorem test_invalidResponseCode8To15 : ports? (step (caller [raw 0x000F])) = some (0x0000, 1) := by decide

/-! ### The step around them -/

/-- The bits of the evaluation are on the ports afterwards, and it is pending no more (P1: IV = 0x0020). -/
theorem test_step_drives_the_ports :
    next? (step (caller [record 0x0020, raw 0x0300])) =
      some ⟨⟨0, 0, 0, 0, 1, 0, 0⟩, .word 0x0100, [raw 0x0300]⟩ := by decide

/-- An opcode-table word placed at reset is what the next step runs. -/
theorem test_withFetchWord_runs_first :
    ports? (step (State.reset.withFetchWord 8 6)) = some (0x0000, 1) := by decide

/-- What is no evaluation is refused by name. -/
theorem test_step_refuses_by_name :
    refusal? (step (caller [record 0x0300])) = some (.notAnEvaluation .unrepresentable) ∧
      refusal? (step (caller [⟨.vector, 0x2000⟩])) = some (.notAnEvaluation .noSuchPort) := by decide

/-- B1, B3: the bytes at header offsets 2 and 3. -/
theorem test_serialise :
    serialise 100 0x8F85 = [(102, 0x8F), (103, 0x85)] ∧ serialise 0 0x0080 = [(2, 0x00), (3, 0x80)] := by decide

/-! ### Witnesses: a state and operands that meet each statement's hypotheses together -/

theorem witness_FieldCodesAreTheTables :
    (10, true) ∈ [(10, s7.authoritative), (9, s7.truncated), (8, s7.recursionDesired), (7, s7.recursionAvailable)] ∧
      (7, true) ∈ [(10, s7.authoritative), (9, s7.truncated), (8, s7.recursionDesired), (7, s7.recursionAvailable)] := by
  decide

theorem witness_DecodeEncodeRoundTrip :
    (Instr.encode s7).wellFormed = true ∧ (Instr.encodeRaw ⟨1, 2, 1, 1, 1, 1, 5⟩).wellFormed = true ∧
      (Instr.invalidResponseCode8To15 1 2 1 1 1 1 7).wellFormed = true := by decide

theorem witness_EncodeDecodeRoundTrip :
    decode (raw 0x1FFF) = .ok (.invalidOpcode8To15 1 7 1 1 1 1 15) ∧ decode (record 0x01F5) = .ok (.encode s7) := by
  decide

/-- The smallest and the largest bad code of each field. -/
theorem witness_IllegalVectorsCounted :
    3 ≤ (portsOfVector 0x0300).opcode.toNat ∧ 3 ≤ (portsOfVector 0x0F00).opcode.toNat ∧
      6 ≤ (portsOfVector 0x0006).responseCode.toNat ∧ 6 ≤ (portsOfVector 0x000F).responseCode.toNat := by decide

theorem witness_FourBitFieldsAreIsolated :
    ¬(11 ≤ 10 ∧ 10 ≤ 14) ∧ ¬(11 ≤ 15 ∧ 15 ≤ 14) ∧ (4 : Nat) ≤ 4 := by decide

theorem witness_MaskIsNoOpOnRecords :
    (accumulate 1 2 true true true true).getLsbD 15 = true ∧ (accumulate 1 2 true true true true).getLsbD 7 = true := by
  decide

theorem witness_EncodeRawChecksThenEncodes :
    ((portsOfVector 0x0300).opcode.toNat > 2 ∨ (portsOfVector 0x0300).responseCode.toNat > 5) ∧
      ((portsOfVector 0x0006).opcode.toNat > 2 ∨ (portsOfVector 0x0006).responseCode.toNat > 5) ∧
      (portsOfVector 0x0205).opcode.toNat ≤ 2 ∧ (portsOfVector 0x0205).responseCode.toNat ≤ 5 := by decide

theorem witness_SwitchesAndMessageTypeNeverRaise :
    (portsOfVector 0x13F6).opcode = (portsOfVector 0x0306).opcode ∧
      (portsOfVector 0x13F6).responseCode = (portsOfVector 0x0306).responseCode ∧
      portsOfVector 0x13F6 ≠ portsOfVector 0x0306 := by decide

theorem witness_OneErrorWithoutFieldIdentity :
    ((portsOfVector 0x0300).opcode.toNat > 2 ∨ (portsOfVector 0x0300).responseCode.toNat > 5) ∧
      ((portsOfVector 0x0F0F).opcode.toNat > 2 ∨ (portsOfVector 0x0F0F).responseCode.toNat > 5) := by decide

theorem witness_EncodeRawAgreesWithEncode :
    (portsOfVector 0x12F5).opcode.toNat ≤ 2 ∧ (portsOfVector 0x12F5).responseCode.toNat ≤ 5 := by decide

theorem witness_InvalidRowsRaise :
    [Instr.invalidOpcode3 0 0 0 0 0 0, .invalidOpcode4To7 0 0 0 0 0 0 0, .invalidOpcode8To15 0 0 0 0 0 0 0,
        .invalidResponseCode6To7 0 0 0 0 0 0 0, .invalidResponseCode8To15 0 0 0 0 0 0 0].all
      (fun i => i ∈ [Instr.invalidOpcode3 0 0 0 0 0 0, .invalidOpcode4To7 0 0 0 0 0 0 0,
        .invalidOpcode8To15 0 0 0 0 0 0 0, .invalidResponseCode6To7 0 0 0 0 0 0 0,
        .invalidResponseCode8To15 0 0 0 0 0 0 0]) = true := by decide

theorem witness_PortRowsAreEncodeRaw :
    formOfInstr (.invalidResponseCode6To7 1 15 1 1 1 1 1) = .vector ∧
      formOfInstr (.encodeRaw (portsOfVector 0x1FFF)) = .vector := by decide

theorem witness_StepRunsThePendingEvaluation :
    (caller [raw 0x0300]).pending = [raw 0x0300] ∧ decode (raw 0x0300) = .ok (.invalidOpcode3 0 0 0 0 0 0) := by decide

theorem witness_StepRunsTheHeldInputs :
    State.reset.pending = [] ∧
      decode (heldEvaluation State.reset.ports) = .ok (.encodeRaw ⟨0, 0, 0, 0, 0, 0, 0⟩) := by decide

theorem witness_StepRunsTheEncodedOperation :
    (Instr.encode s7).wellFormed = true ∧ (caller [encode (.encode s7)]).pending = [encode (.encode s7)] ∧
      decodeTableWord 16 0x12F5 = some (.encodeRaw ⟨1, 2, 1, 1, 1, 1, 5⟩) := by decide

theorem witness_PortLevelStep :
    (caller [raw 0x0205]).pending = [⟨.vector, wordOfVector 0x0205⟩] ∧
      (caller [raw 0x0306]).pending = [⟨.vector, wordOfVector 0x0306⟩] := by decide

theorem witness_RecordLevelStep :
    (caller [record 0x01F5]).pending = [⟨.record, wordOfVector (vectorOfPorts (portsOfRecord s7))⟩] := by decide

theorem witness_StepKeepsOutputsMatchInputs :
    OutputsMatchInputs (caller [raw 0x12F5]) ∧ ReservedBitsZero (caller [raw 0x12F5]) ∧
      next? (step (caller [raw 0x12F5])) = some ⟨⟨1, 2, 1, 1, 1, 1, 5⟩, .word 0x9785, []⟩ := by decide

theorem witness_ReservedBitsAlwaysZero :
    next? (step (caller [raw 0x0300])) = some ⟨⟨0, 3, 0, 0, 0, 0, 0⟩, .invalidFieldValue, []⟩ ∧
      invalidFieldValuePort ⟨⟨0, 3, 0, 0, 0, 0, 0⟩, .invalidFieldValue, []⟩ = 1 := by decide

/-- Held inputs with a word on the outputs, and held inputs that raise the error. -/
theorem witness_HeldInputsKeepTheOutputs :
    (State.reset.pending = [] ∧ OutputsMatchInputs State.reset) ∧
      OutputsMatchInputs ⟨⟨0, 3, 0, 0, 0, 0, 0⟩, .invalidFieldValue, []⟩ := by decide

theorem witness_NoHiddenHistory :
    (caller [raw 0x0020, raw 0x0300]).pending = raw 0x0020 :: [raw 0x0300] ∧
      (State.mk ⟨1, 15, 1, 1, 1, 1, 15⟩ .invalidFieldValue [raw 0x0020]).pending = raw 0x0020 :: [] ∧
      ports? (step (caller [raw 0x0020, raw 0x0300])) = some (0x0100, 0) ∧
      refusal? (step (caller [record 0x0300])) = some (.notAnEvaluation .unrepresentable) := by decide

/-- A bad opcode, and a bad response code with a good opcode, each followed by a valid vector and each held. -/
theorem witness_ErrorIsNotSticky :
    [0x0300, 0x0006].all (fun bad : InputVector =>
      ((bad.extractLsb' 8 4).toNat > 2 ∨ (bad.extractLsb' 0 4).toNat > 5) ∧
      (caller [raw bad, raw 0x01F5]).pending =
        ⟨.vector, wordOfVector bad⟩ :: ⟨.vector, wordOfVector (vectorOfPorts (portsOfRecord s7))⟩ :: [] ∧
      (caller [raw bad]).pending = [⟨.vector, wordOfVector bad⟩]) = true := by decide

end Sys2Proof.Tests
end

/-!
What every operation, the decoder and every step do, said once, and the statements about the state that follow: the
interface of one evaluation (spec/10_state.md) and what a step leaves on it.
-/

namespace Sys2Proof

/-! ### The ports an evaluation is read from -/

/-- A row that matches fixes the opcode port in the bits of its mask (R68, R76). -/
theorem opcode_and_of_rowMatches {mask pattern v : InputVector} (h : rowMatches mask pattern v = true) :
    (portsOfVector v).opcode &&& mask.extractLsb' 8 4 = pattern.extractLsb' 8 4 := by
  have hv : v &&& mask = pattern := eq_of_beq h
  rw [← hv, BitVec.extractLsb'_and]
  rfl

/-- A row that matches fixes the response_code port in the bits of its mask (R68, R76). -/
theorem responseCode_and_of_rowMatches {mask pattern v : InputVector} (h : rowMatches mask pattern v = true) :
    (portsOfVector v).responseCode &&& mask.extractLsb' 0 4 = pattern.extractLsb' 0 4 := by
  have hv : v &&& mask = pattern := eq_of_beq h
  rw [← hv, BitVec.extractLsb'_and]
  rfl

theorem nibble_of_all0011 : ∀ c : Nibble, c &&& 0xF = 3 → 3 = c := by decide

theorem nibble_of_high01 : ∀ c : Nibble, c &&& 0xC = 0x4 → (0b01#2 ++ c.extractLsb' 0 2).cast rfl = c := by decide

theorem nibble_of_high1 : ∀ c : Nibble, c &&& 0x8 = 0x8 → (0b1#1 ++ c.extractLsb' 0 3).cast rfl = c := by decide

theorem nibble_of_high011 : ∀ c : Nibble, c &&& 0xE = 0x6 → (0b011#3 ++ c.extractLsb' 0 1).cast rfl = c := by decide

/-- The operation read from an input vector has the ports the vector drives: the bits a row does not carry are the ones
its match fixes. -/
@[simp] theorem portsOfInstr_decodeVector (v : InputVector) : portsOfInstr (decodeVector v) = portsOfVector v := by
  have opcode_eq {c : Nibble} (h : c = (portsOfVector v).opcode) :
      { portsOfVector v with opcode := c } = portsOfVector v := by rw [h]
  have responseCode_eq {c : Nibble} (h : c = (portsOfVector v).responseCode) :
      { portsOfVector v with responseCode := c } = portsOfVector v := by rw [h]
  unfold decodeVector
  split
  next h => exact opcode_eq (nibble_of_all0011 _ (opcode_and_of_rowMatches h))
  next =>
  split
  next h => exact opcode_eq (nibble_of_high01 _ (opcode_and_of_rowMatches h))
  next =>
  split
  next h => exact opcode_eq (nibble_of_high1 _ (opcode_and_of_rowMatches h))
  next =>
  split
  next h => exact responseCode_eq (nibble_of_high011 _ (responseCode_and_of_rowMatches h))
  next =>
  split
  next h => exact responseCode_eq (nibble_of_high1 _ (responseCode_and_of_rowMatches h))
  next => rfl

/-- The record read from an input vector has the codes the vector drives. -/
theorem portsOfInstr_of_decodeRecord {v : InputVector} {i : Instr} (h : decodeRecord v = .ok i) :
    portsOfInstr i = portsOfVector v := by
  unfold decodeRecord at h
  split at h
  next f hf =>
    cases h
    exact portsOfRecord_of_recordOfPorts hf
  next => cases h

/-- In either form, the operation read from an evaluation has the ports its input vector drives (R70). -/
theorem portsOfInstr_of_decode {e : Evaluation} {i : Instr} (h : decode e = .ok i) :
    portsOfInstr i = portsOfVector (vectorOfWord e.word) := by
  unfold decode at h
  split at h
  next => cases h
  next =>
  split at h
  next => exact portsOfInstr_of_decodeRecord h
  next =>
    cases h
    exact portsOfInstr_decodeVector _

end Sys2Proof

namespace Sys2Proof.Machine

/-! ### What an operation does -/

theorem fieldOutOfRange_of_opcode {p : Ports} (h : p.opcode.toNat > 2) : fieldOutOfRange p = true := by
  simp [fieldOutOfRange, h]

theorem fieldOutOfRange_of_responseCode {p : Ports} (h : p.responseCode.toNat > 5) : fieldOutOfRange p = true := by
  simp [fieldOutOfRange, h]

/-- Every operation, well-formed or not, puts the evaluation of its own ports on the outputs and does nothing else: ENCODE
because its record passes the check, the INVALID_FIELD_VALUE rows because their fixed bits fail it. -/
theorem exec_eq (i : Instr) (s : State) :
    exec i s = .next (driveOutputs (evaluatePorts (portsOfInstr i)) s) := by
  have raises (hr : fieldOutOfRange (portsOfInstr i) = true) :
      raiseInvalidFieldValue s = .next (driveOutputs (evaluatePorts (portsOfInstr i)) s) := by
    rw [evaluatePorts_of_outOfRange hr, raiseInvalidFieldValue_eq]
  cases i with
  | encode f =>
    rw [portsOfInstr, evaluatePorts_of_record (recordOfPorts_portsOfRecord f)]
    rfl
  | encodeRaw p => exact execEncodeRaw_eq p s
  | invalidOpcode3 mt aa tc rd ra rc =>
    exact raises (fieldOutOfRange_of_opcode (by decide : (3 : Nibble).toNat > 2))
  | invalidOpcode4To7 mt lo aa tc rd ra rc =>
    have hlo : ∀ lo : BitVec 2, ((0b01#2 ++ lo).cast rfl : Nibble).toNat > 2 := by decide
    exact raises (fieldOutOfRange_of_opcode (hlo lo))
  | invalidOpcode8To15 mt lo aa tc rd ra rc =>
    have hlo : ∀ lo : BitVec 3, ((0b1#1 ++ lo).cast rfl : Nibble).toNat > 2 := by decide
    exact raises (fieldOutOfRange_of_opcode (hlo lo))
  | invalidResponseCode6To7 mt op aa tc rd ra lo =>
    have hlo : ∀ lo : Bit, ((0b011#3 ++ lo).cast rfl : Nibble).toNat > 5 := by decide
    exact raises (fieldOutOfRange_of_responseCode (hlo lo))
  | invalidResponseCode8To15 mt op aa tc rd ra lo =>
    have hlo : ∀ lo : BitVec 3, ((0b1#1 ++ lo).cast rfl : Nibble).toNat > 5 := by decide
    exact raises (fieldOutOfRange_of_responseCode (hlo lo))

/-- Settles O31: the outputs are the evaluation of the operation's own ports. -/
theorem operationsWriteOnlyTheOutputs : Obligations.OperationsWriteOnlyTheOutputs :=
  fun i s => ⟨evaluatePorts (portsOfInstr i), exec_eq i s, exec_eq i⟩

/-! ### What a step does -/

theorem step_of_decode_ok {s : State} {i : Instr} (h : decode (fetch s).1 = .ok i) :
    step s = exec i (fetch s).2 := by
  simp [step, h]

theorem step_of_decode_error {s : State} {why : Rejection} (h : decode (fetch s).1 = .error why) :
    step s = .refused (.notAnEvaluation why) := by
  simp [step, h]

/-- An evaluation runs with its own input vector on the ports, whether it was pending or is held. -/
theorem fetch_ports (s : State) : (fetch s).2.ports = portsOfVector (vectorOfWord (fetch s).1.word) := by
  cases h : s.pending with
  | nil => simp [fetch_of_pending_nil h, heldEvaluation]
  | cons e rest => simp [fetch_of_pending_cons h]

/-- A step either puts the evaluation of the ports then driven on the outputs, or refuses what is no evaluation. -/
theorem step_cases (s : State) :
    step s = .next (driveOutputs (evaluatePorts (fetch s).2.ports) (fetch s).2) ∨
    ∃ why, decode (fetch s).1 = .error why ∧ step s = .refused (.notAnEvaluation why) := by
  cases h : decode (fetch s).1 with
  | ok i =>
    refine .inl ?_
    rw [step_of_decode_ok h, exec_eq, portsOfInstr_of_decode h, ← fetch_ports]
  | error why => exact .inr ⟨why, rfl, step_of_decode_error h⟩

theorem outputsMatchInputs_of_step {s t : State} (h : step s = .next t) : OutputsMatchInputs t := by
  obtain hnext | ⟨why, -, hrefused⟩ := step_cases s
  · cases hnext.symm.trans h
    rfl
  · cases hrefused.symm.trans h

/-! ### The reserved bits -/

/-- The mask clears bits 6 to 4 and a 4-bit response code sets none of them (R66, R111). -/
theorem wordReserved_encodeWord (f : Flags) : wordReserved (encodeWord f) = 0 := by
  have hmask : reservedMask.extractLsb' 4 3 = 0 := by decide
  have hrc : ∀ c : Nibble, ((c.setWidth 16 : Word)).extractLsb' 4 3 = 0 := by decide
  simp [wordReserved, encodeWord, composeWord, addResponseCode, placeResponseCode, maskReserved,
    BitVec.extractLsb'_or, BitVec.extractLsb'_and, hmask, hrc]

/-- The reserved bits are 0 wherever the outputs are the function of the inputs: a record's word has them 0, and the
error shows 0x0000. -/
theorem reservedBitsZero_of_outputsMatchInputs {s : State} (h : OutputsMatchInputs s) : ReservedBitsZero s := by
  obtain ⟨f, -, -, hword⟩ | ⟨-, herror⟩ := evaluatePorts_cases s.ports
  · simp [ReservedBitsZero, flagsPort, h.trans hword, wordReserved_encodeWord]
  · simp [ReservedBitsZero, flagsPort, h.trans herror, wordReserved]

/-- Settles O33: a step that answers a next state has just evaluated the ports of that state. -/
theorem stepKeepsOutputsMatchInputs : Obligations.StepKeepsOutputsMatchInputs := by
  intro s s' _ hstep
  have hmatch := outputsMatchInputs_of_step hstep
  exact ⟨hmatch, reservedBitsZero_of_outputsMatchInputs hmatch⟩

/-- Settles O32: the zero inputs name the record whose word is 0x0000 (vector S1). -/
theorem resetOutputsMatchInputs : Obligations.ResetOutputsMatchInputs := by
  have hrecord : recordOfPorts State.reset.ports = some ⟨.query, .query, false, false, false, false, .noError⟩ := by
    decide
  have hmatch : OutputsMatchInputs State.reset := (evaluatePorts_of_record hrecord).symm
  exact ⟨hmatch, reservedBitsZero_of_outputsMatchInputs hmatch, by decide, rfl, rfl, rfl⟩

/-! ### A step with an evaluation pending -/

/-- Settles O25. -/
theorem stepRunsThePendingEvaluation : Obligations.StepRunsThePendingEvaluation := by
  intro s e rest i hpending hdecode
  have hfetch := fetch_of_pending_cons hpending
  rw [step_of_decode_ok (by rw [hfetch]; exact hdecode), hfetch]
  rfl

/-- Settles O36: which of its two ends a step has, and the outputs and inputs it ends with, are functions of the
evaluation fetched, and both states fetch the same one. -/
theorem noHiddenHistory : Obligations.NoHiddenHistory := by
  intro s s' e rest rest' hs hs'
  have hf := fetch_of_pending_cons hs
  have hf' := fetch_of_pending_cons hs'
  cases hdecode : decode e with
  | ok i =>
    have hstep : step s = exec i (fetch s).2 := step_of_decode_ok (by rw [hf]; exact hdecode)
    have hstep' : step s' = exec i (fetch s').2 := step_of_decode_ok (by rw [hf']; exact hdecode)
    rw [hstep, hstep', exec_eq, exec_eq, hf, hf']
    refine ⟨fun t ht => ⟨_, rfl, ?_⟩, nofun⟩
    cases ht
    exact ⟨rfl, rfl⟩
  | error why =>
    have hstep : step s = .refused (.notAnEvaluation why) := step_of_decode_error (by rw [hf]; exact hdecode)
    have hstep' : step s' = .refused (.notAnEvaluation why) := step_of_decode_error (by rw [hf']; exact hdecode)
    rw [hstep, hstep']
    exact ⟨nofun, fun _ h => h⟩

/-! ### The contributions of the fields to the word -/

/-- Words that stay within disjoint ranges are disjoint. -/
theorem and_eq_zero_of_within {x y m n : Word} (hx : x &&& m = x) (hy : y &&& n = y) (hmn : m &&& n = 0) :
    x &&& y = 0 := by
  calc x &&& y = (x &&& m) &&& (y &&& n) := by rw [hx, hy]
    _ = (x &&& y) &&& (m &&& n) := by ac_rfl
    _ = 0 := by rw [hmn]; exact BitVec.and_zero

theorem pairwise_disjoint_of_within {l : List (Word × Word)} (hwithin : ∀ a ∈ l, a.1 &&& a.2 = a.1)
    (hranges : (l.map Prod.snd).Pairwise fun m n => m &&& n = 0) :
    (l.map Prod.fst).Pairwise fun x y => x &&& y = 0 :=
  List.pairwise_map.2 <| (List.pairwise_map.1 hranges).imp_of_mem fun ha hb hab =>
    and_eq_zero_of_within (hwithin _ ha) (hwithin _ hb) hab

theorem placeMessageType_within :
    ∀ c : Bit, placeMessageType (c.setWidth 16) &&& 0x8000 = placeMessageType (c.setWidth 16) := by decide

theorem placeOpcode_within :
    ∀ c : Nibble, placeOpcode (c.setWidth 16) &&& 0x7800 = placeOpcode (c.setWidth 16) := by decide

theorem placeResponseCode_within :
    ∀ c : Nibble, placeResponseCode (c.setWidth 16) &&& 0x000F = placeResponseCode (c.setWidth 16) := by decide

theorem placeSwitch_within (k : Nat) (on : Bool) : placeSwitch k on &&& ((1 : Word) <<< k) = placeSwitch k on := by
  cases on with
  | false => exact BitVec.zero_and
  | true => exact BitVec.and_self

/-- The contribution of each field beside the bits of the word that are its own, and the reserved bits (R65, R67). -/
def placedFields (mt : Bit) (op rc : Nibble) (aa tc rd ra : Bool) : List (Word × Word) :=
  [(placeMessageType (mt.setWidth 16), 0x8000), (placeOpcode (op.setWidth 16), 0x7800),
    (placeSwitch shiftAuthoritative aa, 1 <<< shiftAuthoritative), (placeSwitch shiftTruncated tc, 1 <<< shiftTruncated),
    (placeSwitch shiftRecursionDesired rd, 1 <<< shiftRecursionDesired),
    (placeSwitch shiftRecursionAvailable ra, 1 <<< shiftRecursionAvailable), (~~~reservedMask, 0x0070),
    (placeResponseCode (rc.setWidth 16), 0x000F)]

theorem placedFields_within (mt : Bit) (op rc : Nibble) (aa tc rd ra : Bool) :
    ∀ a ∈ placedFields mt op rc aa tc rd ra, a.1 &&& a.2 = a.1 := by
  have hreserved : ~~~reservedMask &&& 0x0070 = ~~~reservedMask := by decide
  simp only [placedFields, List.forall_mem_cons]
  exact ⟨placeMessageType_within mt, placeOpcode_within op, placeSwitch_within _ aa, placeSwitch_within _ tc,
    placeSwitch_within _ rd, placeSwitch_within _ ra, hreserved, placeResponseCode_within rc, nofun⟩

theorem placedFields_ranges_disjoint (mt : Bit) (op rc : Nibble) (aa tc rd ra : Bool) :
    ((placedFields mt op rc aa tc rd ra).map Prod.snd).Pairwise fun m n => m &&& n = 0 := by
  change [0x8000, 0x7800, 0x0400, 0x0200, 0x0100, 0x0080, 0x0070, 0x000F].Pairwise fun m n : Word => m &&& n = 0
  decide

/-- Settles O15: each contribution stays within the range of its field, and the ranges are disjoint. -/
theorem contributionsAreDisjoint : Obligations.ContributionsAreDisjoint :=
  ⟨by decide, by decide,
    fun mt op rc aa tc rd ra =>
      pairwise_disjoint_of_within (placedFields_within mt op rc aa tc rd ra)
        (placedFields_ranges_disjoint mt op rc aa tc rd ra),
    by decide⟩

end Sys2Proof.Machine

/-!
The held inputs and the bytes of the word (spec/20_memory.md): a step with nothing pending, the layout FLAGS16 of every
word, and what the serialiser stores of it.
-/

namespace Sys2Proof.Machine

/-! ### A step with the inputs held -/

/-- With nothing pending a step puts the evaluation of the held inputs on the outputs, nothing else (R70, R183). -/
theorem step_of_pending_nil {s : State} (h : s.pending = []) :
    step s = .next (driveOutputs (evaluatePorts s.ports) s) := by
  have hfetch := fetch_of_pending_nil h
  have hdecode : decode (fetch s).1 = .ok (decodeVector (vectorOfPorts s.ports)) := by
    rw [hfetch, decode_heldEvaluation]
  rw [step_of_decode_ok hdecode, exec_eq, portsOfInstr_decodeVector, portsOfVector_vectorOfPorts, hfetch]

/-- Settles O35: the evaluation of the held inputs is what the outputs already show. -/
theorem heldInputsKeepTheOutputs : Obligations.HeldInputsKeepTheOutputs := by
  intro s hpending hmatch
  rw [step_of_pending_nil hpending, ← hmatch, driveOutputs_self]

/-! ### The layout of the word -/

/-- A switch contributes its bit shifted into place, as a code does (R67, R104). -/
theorem placeSwitch_eq_shiftLeft (k : Nat) (on : Bool) :
    placeSwitch k on = ((bitOfBool on).setWidth 16 : Word) <<< k := by
  cases on with
  | false => exact (BitVec.zero_shiftLeft k).symm
  | true => rfl

/-- The seven steps on codes as wide as their fields lay the word out as FLAGS16 (R65, R100): at each of the sixteen
bits the one contribution that reaches it is the field the layout has there. -/
theorem composeWord_eq_flags16 (mt : Bit) (op rc : Nibble) (aa tc rd ra : Bool) :
    composeWord (mt.setWidth 16) (op.setWidth 16) aa tc rd ra (rc.setWidth 16) =
      flags16 ⟨mt, op, bitOfBool aa, bitOfBool tc, bitOfBool rd, bitOfBool ra, rc⟩ := by
  apply BitVec.eq_of_getLsbD_eq
  intro k hk
  simp only [composeWord, addResponseCode, maskReserved, accumulate, placeMessageType, placeOpcode, placeResponseCode,
    placeSwitch_eq_shiftLeft, reservedMask, flags16, BitVec.getLsbD_cast, BitVec.getLsbD_append]
  interval_cases k <;>
    simp [shiftMessageType, shiftOpcode, shiftAuthoritative, shiftTruncated, shiftRecursionDesired,
      shiftRecursionAvailable]

/-- The word of a record is its codes in the layout FLAGS16 (R65, R108). -/
theorem encodeWord_eq_flags16 (f : Flags) : encodeWord f = flags16 (portsOfRecord f) :=
  composeWord_eq_flags16 ..

/-! ### The bytes of the word -/

/-- FLAGS16 splits between recursion_desired and recursion_available into the two bytes of R43. -/
theorem flags16_eq_append (p : Ports) :
    flags16 p =
      ((p.messageType ++ p.opcode ++ p.authoritative ++ p.truncated ++ p.recursionDesired).cast rfl : Byte) ++
        ((p.recursionAvailable ++ 0b000#3 ++ p.responseCode).cast rfl : Byte) := by
  rw [flags16]
  generalize p.messageType ++ p.opcode ++ p.authoritative ++ p.truncated ++ p.recursionDesired = high
  simp only [BitVec.append_assoc, BitVec.cast_eq]

/-- The high byte is stored first, at offset 2, and the low byte at offset 3 (R41). -/
theorem serialise_append (h : Nat) (high low : Byte) :
    serialise h (high ++ low) = [(h + 2, high), (h + 3, low)] := by
  rw [serialise, BitVec.extractLsb'_append_eq_left, BitVec.extractLsb'_append_eq_right]

/-- Settles O38: the word is the two bytes the serialiser stores, one above the other. -/
theorem serialisedBytes : Obligations.SerialisedBytes := by
  intro h f
  rw [encodeWord_eq_flags16, flags16_eq_append, serialise_append]

end Sys2Proof.Machine

/-!
Reading an evaluation (spec/30_encoding.md): the rows of the opcode table as ranges of the two 4-bit codes, and the
round trips between operations and evaluations.
-/

namespace Sys2Proof

/-! ### A field of a vector -/

/-- A field put back at its place is the vector under the field's mask. -/
theorem setWidth_extractLsb'_shiftLeft {w : Nat} (x : BitVec w) (s n : Nat) :
    (x.extractLsb' s n).setWidth w <<< s = x &&& (BitVec.allOnes n).setWidth w <<< s := by
  apply BitVec.eq_of_getLsbD_eq
  intro k hk
  by_cases hs : k < s
  · simp [hs]
  · have hks : s + (k - s) = k := by omega
    simp [hs, hks, hk, Bool.and_comm]

/-- A pattern that lies within one field is matched on that field alone. -/
theorem and_eq_iff_extractLsb' {w s n : Nat} {x mask pattern : BitVec w}
    (hmask : mask &&& (BitVec.allOnes n).setWidth w <<< s = mask)
    (hpattern : pattern &&& (BitVec.allOnes n).setWidth w <<< s = pattern) :
    x &&& mask = pattern ↔ x.extractLsb' s n &&& mask.extractLsb' s n = pattern.extractLsb' s n := by
  rw [← BitVec.extractLsb'_and]
  refine ⟨fun h => by rw [h], fun h => ?_⟩
  have hplace := congrArg (fun field : BitVec n => field.setWidth w <<< s) h
  simpa only [setWidth_extractLsb'_shiftLeft, BitVec.and_assoc, hmask, hpattern] using hplace

/-! ### The rows of the opcode table -/

theorem rowMatches_iff {mask pattern v : InputVector} : rowMatches mask pattern v = true ↔ v &&& mask = pattern :=
  beq_iff_eq

/-- A row within the opcode field matches the vectors whose opcode its fixed bits allow. -/
theorem rowMatches_iff_opcode {mask pattern v : InputVector} {P : Nibble → Prop}
    (hmask : mask &&& (BitVec.allOnes 4).setWidth 13 <<< 8 = mask)
    (hpattern : pattern &&& (BitVec.allOnes 4).setWidth 13 <<< 8 = pattern)
    (hcodes : ∀ c : Nibble, c &&& mask.extractLsb' 8 4 = pattern.extractLsb' 8 4 ↔ P c) :
    rowMatches mask pattern v = true ↔ P (portsOfVector v).opcode := by
  rw [rowMatches_iff, and_eq_iff_extractLsb' hmask hpattern]
  exact hcodes _

/-- A row within the response_code field matches the vectors whose response code its fixed bits allow. -/
theorem rowMatches_iff_responseCode {mask pattern v : InputVector} {P : Nibble → Prop}
    (hmask : mask &&& (BitVec.allOnes 4).setWidth 13 <<< 0 = mask)
    (hpattern : pattern &&& (BitVec.allOnes 4).setWidth 13 <<< 0 = pattern)
    (hcodes : ∀ c : Nibble, c &&& mask.extractLsb' 0 4 = pattern.extractLsb' 0 4 ↔ P c) :
    rowMatches mask pattern v = true ↔ P (portsOfVector v).responseCode := by
  rw [rowMatches_iff, and_eq_iff_extractLsb' hmask hpattern]
  exact hcodes _

theorem rowMatches_opcode3_iff {v : InputVector} :
    rowMatches 0x0F00 0x0300 v = true ↔ (portsOfVector v).opcode.toNat = 3 :=
  rowMatches_iff_opcode (P := fun c => c.toNat = 3) (by decide) (by decide) (by decide)

theorem rowMatches_opcode4To7_iff {v : InputVector} :
    rowMatches 0x0C00 0x0400 v = true ↔ 4 ≤ (portsOfVector v).opcode.toNat ∧ (portsOfVector v).opcode.toNat ≤ 7 :=
  rowMatches_iff_opcode (P := fun c => 4 ≤ c.toNat ∧ c.toNat ≤ 7) (by decide) (by decide) (by decide)

theorem rowMatches_opcode8To15_iff {v : InputVector} :
    rowMatches 0x0800 0x0800 v = true ↔ 8 ≤ (portsOfVector v).opcode.toNat :=
  rowMatches_iff_opcode (P := fun c => 8 ≤ c.toNat) (by decide) (by decide) (by decide)

theorem rowMatches_responseCode6To7_iff {v : InputVector} :
    rowMatches 0x000E 0x0006 v = true ↔
      (portsOfVector v).responseCode.toNat = 6 ∨ (portsOfVector v).responseCode.toNat = 7 :=
  rowMatches_iff_responseCode (P := fun c => c.toNat = 6 ∨ c.toNat = 7) (by decide) (by decide) (by decide)

theorem rowMatches_responseCode8To15_iff {v : InputVector} :
    rowMatches 0x0008 0x0008 v = true ↔ 8 ≤ (portsOfVector v).responseCode.toNat :=
  rowMatches_iff_responseCode (P := fun c => 8 ≤ c.toNat) (by decide) (by decide) (by decide)

theorem opcodeInRange_iff {c : Nibble} : opcodeInRange c = true ↔ c.toNat ≤ 2 := decide_eq_true_iff

theorem responseCodeInRange_iff {c : Nibble} : responseCodeInRange c = true ↔ c.toNat ≤ 5 := decide_eq_true_iff

/-- An opcode is in range exactly when it is in none of the ranges of the opcode rows. -/
theorem opcodeInRange_iff_not_row {c : Nibble} :
    opcodeInRange c = true ↔ ¬c.toNat = 3 ∧ ¬(4 ≤ c.toNat ∧ c.toNat ≤ 7) ∧ ¬8 ≤ c.toNat := by
  rw [opcodeInRange_iff]
  omega

/-- A response code is in range exactly when it is in none of the ranges of the response_code rows. -/
theorem responseCodeInRange_iff_not_row {c : Nibble} :
    responseCodeInRange c = true ↔ ¬(c.toNat = 6 ∨ c.toNat = 7) ∧ ¬8 ≤ c.toNat := by
  rw [responseCodeInRange_iff]
  omega

/-- The five patterns together are the codes out of range (R76). -/
theorem any_invalidRows_iff {v : InputVector} :
    (invalidRows.any fun row => rowMatches row.1 row.2 v) = true ↔
      (portsOfVector v).opcode.toNat > 2 ∨ (portsOfVector v).responseCode.toNat > 5 := by
  simp only [invalidRows, List.any_cons, List.any_nil, Bool.or_eq_true, rowMatches_opcode3_iff,
    rowMatches_opcode4To7_iff, rowMatches_opcode8To15_iff, rowMatches_responseCode6To7_iff,
    rowMatches_responseCode8To15_iff, Bool.false_eq_true, or_false]
  omega

/-! ### What the decoder reads -/

@[simp] theorem formOfInstr_decodeVector (v : InputVector) : formOfInstr (decodeVector v) = .vector := by
  unfold decodeVector
  split_ifs <;> rfl

/-- The first matching row reads a vector, so a response_code row is read only with an opcode in range. -/
@[simp] theorem wellFormed_decodeVector (v : InputVector) : (decodeVector v).wellFormed = true := by
  unfold decodeVector
  simp only [rowMatches_opcode3_iff, rowMatches_opcode4To7_iff, rowMatches_opcode8To15_iff,
    rowMatches_responseCode6To7_iff, rowMatches_responseCode8To15_iff]
  split_ifs with h3 h4 h8 h6 hrc
  · rfl
  · rfl
  · rfl
  · exact opcodeInRange_iff_not_row.2 ⟨h3, h4, h8⟩
  · exact opcodeInRange_iff_not_row.2 ⟨h3, h4, h8⟩
  · exact Bool.and_eq_true_iff.2
      ⟨opcodeInRange_iff_not_row.2 ⟨h3, h4, h8⟩, responseCodeInRange_iff_not_row.2 ⟨h6, hrc⟩⟩

/-- The rows as ranges of the two codes on the ports. -/
theorem decodeVector_vectorOfPorts (p : Ports) :
    decodeVector (vectorOfPorts p) =
      if p.opcode.toNat = 3 then
        .invalidOpcode3 p.messageType p.authoritative p.truncated p.recursionDesired p.recursionAvailable p.responseCode
      else if 4 ≤ p.opcode.toNat ∧ p.opcode.toNat ≤ 7 then
        .invalidOpcode4To7 p.messageType (p.opcode.extractLsb' 0 2) p.authoritative p.truncated p.recursionDesired
          p.recursionAvailable p.responseCode
      else if 8 ≤ p.opcode.toNat then
        .invalidOpcode8To15 p.messageType (p.opcode.extractLsb' 0 3) p.authoritative p.truncated p.recursionDesired
          p.recursionAvailable p.responseCode
      else if p.responseCode.toNat = 6 ∨ p.responseCode.toNat = 7 then
        .invalidResponseCode6To7 p.messageType p.opcode p.authoritative p.truncated p.recursionDesired
          p.recursionAvailable (p.responseCode.extractLsb' 0 1)
      else if 8 ≤ p.responseCode.toNat then
        .invalidResponseCode8To15 p.messageType p.opcode p.authoritative p.truncated p.recursionDesired
          p.recursionAvailable (p.responseCode.extractLsb' 0 3)
      else .encodeRaw p := by
  simp only [decodeVector, rowMatches_opcode3_iff, rowMatches_opcode4To7_iff, rowMatches_opcode8To15_iff,
    rowMatches_responseCode6To7_iff, rowMatches_responseCode8To15_iff, portsOfVector_vectorOfPorts]

/-- A well-formed operation of the port level is what the decoder reads from its ports: its own row matches, and no row
above it does. -/
theorem decodeVector_vectorOfPorts_portsOfInstr {i : Instr} (hwf : i.wellFormed = true)
    (hform : formOfInstr i = .vector) : decodeVector (vectorOfPorts (portsOfInstr i)) = i := by
  rw [decodeVector_vectorOfPorts]
  cases i with
  | encode f => cases hform
  | encodeRaw p =>
    obtain ⟨hop, hrc⟩ := Bool.and_eq_true_iff.1 hwf
    simp only [portsOfInstr, opcodeInRange_iff_not_row.1 hop, responseCodeInRange_iff_not_row.1 hrc, if_false]
  | invalidOpcode3 mt aa tc rd ra rc => rfl
  | invalidOpcode4To7 mt lo aa tc rd ra rc =>
    have hrow : ∀ lo : BitVec 2, ¬(0b01#2 ++ lo).toNat = 3 ∧ 4 ≤ (0b01#2 ++ lo).toNat ∧ (0b01#2 ++ lo).toNat ≤ 7 := by
      decide
    simp only [portsOfInstr, BitVec.cast_eq, hrow, and_self, if_true, if_false, BitVec.extractLsb'_append_eq_right]
  | invalidOpcode8To15 mt lo aa tc rd ra rc =>
    have hrow : ∀ lo : BitVec 3, ¬(0b1#1 ++ lo).toNat = 3 ∧ ¬(0b1#1 ++ lo).toNat ≤ 7 ∧ 8 ≤ (0b1#1 ++ lo).toNat := by
      decide
    simp only [portsOfInstr, BitVec.cast_eq, hrow, and_false, if_true, if_false, BitVec.extractLsb'_append_eq_right]
  | invalidResponseCode6To7 mt op aa tc rd ra lo =>
    have hrow : ∀ lo : Bit, (0b011#3 ++ lo).toNat = 6 ∨ (0b011#3 ++ lo).toNat = 7 := by decide
    simp only [portsOfInstr, BitVec.cast_eq, opcodeInRange_iff_not_row.1 hwf, hrow, if_true, if_false,
      BitVec.extractLsb'_append_eq_right]
  | invalidResponseCode8To15 mt op aa tc rd ra lo =>
    have hrow : ∀ lo : BitVec 3, ¬((0b1#1 ++ lo).toNat = 6 ∨ (0b1#1 ++ lo).toNat = 7) ∧ 8 ≤ (0b1#1 ++ lo).toNat := by
      decide
    simp only [portsOfInstr, BitVec.cast_eq, opcodeInRange_iff_not_row.1 hwf, hrow, if_true, if_false,
      BitVec.extractLsb'_append_eq_right]

/-- ENCODE_RAW reads exactly the legal vectors (R76: the INVALID_FIELD_VALUE rows take precedence). -/
theorem decodeVector_eq_encodeRaw_iff {v : InputVector} :
    decodeVector v = .encodeRaw (portsOfVector v) ↔
      (portsOfVector v).opcode.toNat ≤ 2 ∧ (portsOfVector v).responseCode.toNat ≤ 5 := by
  rw [← opcodeInRange_iff, ← responseCodeInRange_iff, ← Bool.and_eq_true_iff]
  constructor
  · intro h
    have hwf := wellFormed_decodeVector v
    rwa [h] at hwf
  · intro hwf
    have h := decodeVector_vectorOfPorts_portsOfInstr (i := .encodeRaw (portsOfVector v)) hwf rfl
    rwa [portsOfInstr, vectorOfPorts_portsOfVector] at h

/-! ### Reading an evaluation -/

@[simp] theorem decode_vector_wordOfVector (v : InputVector) :
    decode ⟨.vector, wordOfVector v⟩ = .ok (decodeVector v) := by
  simp [decode]

@[simp] theorem decode_record_wordOfVector (v : InputVector) : decode ⟨.record, wordOfVector v⟩ = decodeRecord v := by
  simp [decode]

theorem decodeRecord_of_some {v : InputVector} {f : Flags} (h : recordOfPorts (portsOfVector v) = some f) :
    decodeRecord v = .ok (.encode f) := by
  simp [decodeRecord, h]

theorem decodeRecord_of_none {v : InputVector} (h : recordOfPorts (portsOfVector v) = none) :
    decodeRecord v = .error .unrepresentable := by
  simp [decodeRecord, h]

/-- What is read is the port-level operation of the vector or the record the codes name, as the form says; what is no
evaluation sets a bit that drives no port, or is a record whose code names no variant (R71). -/
theorem decode_cases (e : Evaluation) :
    (setsNoSuchPort e.word = true ∧ decode e = .error .noSuchPort) ∨
      (setsNoSuchPort e.word = false ∧
        ((e.form = .vector ∧ decode e = .ok (decodeVector (vectorOfWord e.word))) ∨
          (e.form = .record ∧ ∃ f, decode e = .ok (.encode f)) ∨
          (e.form = .record ∧ recordOfPorts (portsOfVector (vectorOfWord e.word)) = none ∧
            decode e = .error .unrepresentable))) := by
  unfold decode
  split
  next hport => exact .inl ⟨hport, rfl⟩
  next hport =>
  refine .inr ⟨Bool.eq_false_iff.2 hport, ?_⟩
  split
  next hform =>
    cases hrecord : recordOfPorts (portsOfVector (vectorOfWord e.word)) with
    | some f => exact .inr (.inl ⟨hform, f, decodeRecord_of_some hrecord⟩)
    | none => exact .inr (.inr ⟨hform, rfl, decodeRecord_of_none hrecord⟩)
  next hform => exact .inl ⟨hform, rfl⟩

theorem decode_ok_cases {e : Evaluation} {i : Instr} (h : decode e = .ok i) :
    setsNoSuchPort e.word = false ∧
      ((e.form = .vector ∧ i = decodeVector (vectorOfWord e.word)) ∨ (e.form = .record ∧ ∃ f, i = .encode f)) := by
  obtain ⟨-, hd⟩ | ⟨hport, ⟨hform, hd⟩ | ⟨hform, f, hd⟩ | ⟨-, -, hd⟩⟩ := decode_cases e <;> cases h.symm.trans hd
  · exact ⟨hport, .inl ⟨hform, rfl⟩⟩
  · exact ⟨hport, .inr ⟨hform, f, rfl⟩⟩

/-! ### The round trips -/

/-- Settles O3: ENCODE is read from its record's codes, and an operation of the port level by its own row. -/
theorem decodeEncodeRoundTrip : Obligations.DecodeEncodeRoundTrip := by
  intro i hwf
  cases hform : formOfInstr i with
  | record =>
    cases i with
    | encode f =>
      exact (decode_record_wordOfVector _).trans (decodeRecord_of_some (by simp [portsOfInstr]))
    | _ => cases hform
  | vector =>
    rw [encode, hform, decode_vector_wordOfVector, decodeVector_vectorOfPorts_portsOfInstr hwf hform]

theorem formOfInstr_of_decode {e : Evaluation} {i : Instr} (h : decode e = .ok i) : formOfInstr i = e.form := by
  obtain ⟨-, ⟨hform, rfl⟩ | ⟨hform, f, rfl⟩⟩ := decode_ok_cases h
  · rw [hform, formOfInstr_decodeVector]
  · exact hform.symm

theorem wellFormed_of_decode {e : Evaluation} {i : Instr} (h : decode e = .ok i) : i.wellFormed = true := by
  obtain ⟨-, ⟨-, rfl⟩ | ⟨-, f, rfl⟩⟩ := decode_ok_cases h
  · exact wellFormed_decodeVector _
  · rfl

/-- Settles O4: the operation read keeps the form and drives the ports of the word it was read from. -/
theorem encodeDecodeRoundTrip : Obligations.EncodeDecodeRoundTrip := by
  intro e i h
  refine ⟨wellFormed_of_decode h, ?_⟩
  have hport : setsNoSuchPort e.word = false := (decode_ok_cases h).1
  rw [encode, formOfInstr_of_decode h, portsOfInstr_of_decode h, vectorOfPorts_portsOfVector,
    wordOfVector_vectorOfWord hport]

/-- Settles O2: the decoder runs on the seven fixed words. -/
theorem writtenOutVectorsDecode : Obligations.WrittenOutVectorsDecode :=
  ⟨by decide, by decide, by decide, by decide, by decide, by decide, by decide⟩

/-! ### The codes of the fields (R61 to R63, R71) -/

theorem messageTypeOfCode_eq_iff {c : Bit} {m : MessageType} : messageTypeOfCode c = m ↔ m.code = c :=
  ⟨fun h => h ▸ code_messageTypeOfCode c, fun h => h ▸ messageTypeOfCode_code m⟩

theorem opcodeOfCode_eq_some_iff {c : Nibble} {o : Opcode} : opcodeOfCode c = some o ↔ o.code = c :=
  ⟨code_of_opcodeOfCode, fun h => h ▸ opcodeOfCode_code o⟩

theorem responseCodeOfCode_eq_some_iff {c : Nibble} {r : ResponseCode} :
    responseCodeOfCode c = some r ↔ r.code = c :=
  ⟨code_of_responseCodeOfCode, fun h => h ▸ responseCodeOfCode_code r⟩

theorem opcodeOfCode_eq_none_iff {c : Nibble} : opcodeOfCode c = none ↔ 3 ≤ c.toNat := by
  rw [← Option.not_isSome_iff_eq_none, opcodeOfCode_isSome, opcodeInRange_iff, not_le]
  rfl

theorem responseCodeOfCode_eq_none_iff {c : Nibble} : responseCodeOfCode c = none ↔ 6 ≤ c.toNat := by
  rw [← Option.not_isSome_iff_eq_none, responseCodeOfCode_isSome, responseCodeInRange_iff, not_le]
  rfl

end Sys2Proof

/-!
The word and the step at both levels (spec/30_encoding.md): the layout of every word, what ENCODE_RAW and the rows of the
table answer, and one step on any vector, record or operation.
-/

namespace Sys2Proof.Machine

/-! ### The layout of the word -/

/-- R75: the fields of a word in the layout FLAGS16 are the codes it was laid out from. -/
@[simp] theorem fieldsOfWord_flags16 (p : Ports) : fieldsOfWord (flags16 p) = p := by
  obtain ⟨mt, op, aa, tc, rd, ra, rc⟩ := p
  simp only [fieldsOfWord, flags16, Ports.mk.injEq]
  refine ⟨?_, ?_, ?_, ?_, ?_, ?_, ?_⟩ <;>
  · ext i hi
    simp only [BitVec.getElem_extractLsb', BitVec.getLsbD_cast, BitVec.getLsbD_append]
    interval_cases i <;> simp

/-- R75: the fields of a record's word are the record's codes. -/
@[simp] theorem fieldsOfWord_encodeWord (f : Flags) : fieldsOfWord (encodeWord f) = portsOfRecord f := by
  rw [encodeWord_eq_flags16, fieldsOfWord_flags16]

/-- R69: the layout FLAGS16 is the input vector with three zero bits inserted above bit 3. -/
theorem flags16_eq_insert_zeros (p : Ports) :
    flags16 p = ((vectorOfPorts p).extractLsb' 4 9 ++ 0b000#3 ++ (vectorOfPorts p).extractLsb' 0 4).cast rfl := by
  simp only [flags16, vectorOfPorts, BitVec.cast_eq, BitVec.extractLsb'_append_eq_left,
    BitVec.extractLsb'_append_eq_right]

/-- A switch stands in the word as its own bit (R64). -/
theorem getLsbD_of_extractLsb'_eq_bitOfBool {w : Word} {k : Nat} {b : Bool}
    (h : w.extractLsb' k 1 = bitOfBool b) : w.getLsbD k = b := by
  have hbit := congrArg (fun x : Bit => x.getLsbD 0) h
  simpa [bitOfBool] using hbit

/-- Settles O1: the codes are the tables, and a word's fields are the codes of its record. -/
theorem fieldCodesAreTheTables : Obligations.FieldCodesAreTheTables := by
  refine ⟨by decide, by decide, by decide, by decide, fun _ _ => messageTypeOfCode_eq_iff,
    fun _ _ => opcodeOfCode_eq_some_iff, fun _ _ => responseCodeOfCode_eq_some_iff, fun _ => opcodeOfCode_eq_none_iff,
    fun _ => responseCodeOfCode_eq_none_iff, fun f k b hk => ?_, fun f => ?_⟩
  · simp only [List.mem_cons, List.not_mem_nil, Prod.mk.injEq, or_false] at hk
    apply getLsbD_of_extractLsb'_eq_bitOfBool
    obtain ⟨rfl, rfl⟩ | ⟨rfl, rfl⟩ | ⟨rfl, rfl⟩ | ⟨rfl, rfl⟩ := hk
    · exact congrArg Ports.authoritative (fieldsOfWord_encodeWord f)
    · exact congrArg Ports.truncated (fieldsOfWord_encodeWord f)
    · exact congrArg Ports.recursionDesired (fieldsOfWord_encodeWord f)
    · exact congrArg Ports.recursionAvailable (fieldsOfWord_encodeWord f)
  · exact ⟨congrArg Ports.messageType (fieldsOfWord_encodeWord f), congrArg Ports.opcode (fieldsOfWord_encodeWord f),
      congrArg Ports.responseCode (fieldsOfWord_encodeWord f)⟩

/-! ### The reserved bits -/

theorem getLsbD_of_wordReserved {w : Word} (h : wordReserved w = 0) :
    w.getLsbD 6 = false ∧ w.getLsbD 5 = false ∧ w.getLsbD 4 = false := by
  have hbit (k : Nat) (hk : k < 3) : w.getLsbD (4 + k) = false := by
    have hz := congrArg (fun x : BitVec 3 => x.getLsbD k) h
    simpa [wordReserved, hk] using hz
  exact ⟨hbit 2 (by decide), hbit 1 (by decide), hbit 0 (by decide)⟩

theorem flagsPort_of_error {s : State} (h : invalidFieldValuePort s = 1) : flagsPort s = 0x0000 := by
  unfold invalidFieldValuePort at h
  unfold flagsPort
  split at h
  next => cases h
  next => rfl

/-- Settles O34: the mask clears the reserved bits of a record's word, and the outputs after a step are the function of
the inputs. -/
theorem reservedBitsAlwaysZero : Obligations.ReservedBitsAlwaysZero := by
  refine ⟨fun f => getLsbD_of_wordReserved (wordReserved_encodeWord f), fun s t hstep => ⟨?_, flagsPort_of_error⟩⟩
  exact getLsbD_of_wordReserved (reservedBitsZero_of_outputsMatchInputs (outputsMatchInputs_of_step hstep))

/-- Settles O5: each pattern lies within one field, so each row is a range of one code. -/
theorem illegalExactlyWhenARowMatches : Obligations.IllegalExactlyWhenARowMatches := by
  refine ⟨fun p => ?_, fun _ => any_invalidRows_iff, fun _ => decodeVector_eq_encodeRaw_iff, fun f => ?_⟩
  · simp only [← rowMatches_iff, rowMatches_opcode3_iff, rowMatches_opcode4To7_iff, rowMatches_opcode8To15_iff,
      rowMatches_responseCode6To7_iff, rowMatches_responseCode8To15_iff, portsOfVector_vectorOfPorts, and_self]
  · have hplace := setWidth_extractLsb'_shiftLeft (encodeWord f) 4 3
    have hz : (encodeWord f).extractLsb' 4 3 = 0 := wordReserved_encodeWord f
    rw [hz] at hplace
    exact hplace.symm

/-! ### The outcome of an evaluation -/

theorem fieldOutOfRange_iff {p : Ports} :
    fieldOutOfRange p = true ↔ p.opcode.toNat > 2 ∨ p.responseCode.toNat > 5 := by
  simp [fieldOutOfRange]

/-- The evaluation of the ports is the error for a code out of range, else the codes in the layout FLAGS16 (R65, R130). -/
theorem evaluatePorts_eq (p : Ports) :
    evaluatePorts p =
      if p.opcode.toNat > 2 ∨ p.responseCode.toNat > 5 then .invalidFieldValue else .word (flags16 p) := by
  obtain ⟨f, hrecord, rfl, hword⟩ | ⟨hrange, herror⟩ := evaluatePorts_cases p
  · rw [hword, encodeWord_eq_flags16, if_neg]
    rw [← fieldOutOfRange_iff, fieldOutOfRange_of_record hrecord]
    decide
  · rw [herror, if_pos (fieldOutOfRange_iff.1 hrange)]

/-- Settles O24: both sides put the evaluation of the same ports on the outputs, whatever the form. -/
theorem portRowsAreEncodeRaw : Obligations.PortRowsAreEncodeRaw := by
  intro i s _
  rw [exec_eq, exec_eq]
  rfl

/-- Settles O22: ENCODE_RAW evaluates the record's own ports, and valid codes evaluate to the layout FLAGS16. -/
theorem encodeRawAgreesWithEncode : Obligations.EncodeRawAgreesWithEncode := by
  refine ⟨fun f s => ?_, fun p s hop hrc => ?_⟩
  · rw [exec_eq, exec_eq]
    rfl
  · have hvalid : ¬(p.opcode.toNat > 2 ∨ p.responseCode.toNat > 5) := by omega
    refine ⟨driveOutputs (.word (flags16 p)) s, ?_, rfl, flags16_eq_insert_zeros p⟩
    rw [exec_eq, portsOfInstr, evaluatePorts_eq, if_neg hvalid]

/-! ### The step -/

/-- Settles O26: with nothing pending the state fetched is the state as it is. -/
theorem stepRunsTheHeldInputs : Obligations.StepRunsTheHeldInputs := by
  intro s i hpending hdecode
  have hfetch := fetch_of_pending_nil hpending
  rw [step_of_decode_ok (by rw [hfetch]; exact hdecode), hfetch]

/-- The evaluation pending runs with the ports of the operation it is read as. -/
theorem step_of_pending_cons {s : State} {e : Evaluation} {rest : List Evaluation} {i : Instr}
    (hpending : s.pending = e :: rest) (hdecode : decode e = .ok i) :
    step s = exec i { s with ports := portsOfInstr i, pending := rest } := by
  rw [stepRunsThePendingEvaluation s e rest i hpending hdecode, portsOfInstr_of_decode hdecode]

theorem decode_of_decodeTableWord {nbits w : Nat} {i : Instr} (h : decodeTableWord nbits w = some i) :
    decode (evaluationOfTableWord nbits w) = .ok i := by
  unfold decodeTableWord at h
  split at h
  next j hj =>
    cases h
    exact hj
  next => cases h

/-- Settles O27: the round trip for the encoding, and the decoder's own reading for an opcode-table word. -/
theorem stepRunsTheEncodedOperation : Obligations.StepRunsTheEncodedOperation :=
  ⟨fun _ i _ hwf hpending => step_of_pending_cons hpending (decodeEncodeRoundTrip i hwf),
    fun s nbits w _ h =>
      step_of_pending_cons (present_pending (evaluationOfTableWord nbits w) s) (decode_of_decodeTableWord h)⟩

/-- Settles O28: the vector is read as the operation of its own ports, whose evaluation is the error or FLAGS16. -/
theorem portLevelStep : Obligations.PortLevelStep := by
  intro s v rest hpending
  rw [step_of_pending_cons hpending (decode_vector_wordOfVector v), exec_eq, portsOfInstr_decodeVector,
    evaluatePorts_eq, flags16_eq_insert_zeros, vectorOfPorts_portsOfVector]
  rfl

/-- Settles O29: the vector of a record's codes is the encoding of ENCODE. -/
theorem recordLevelStep : Obligations.RecordLevelStep := by
  intro s f rest hpending
  have hstep := stepRunsTheEncodedOperation.1 s (.encode f) rest rfl hpending
  rw [hstep, exec_eq, portsOfInstr, evaluatePorts_of_record (recordOfPorts_portsOfRecord f), encodeWord_eq_flags16]
  rfl

/-- Settles O30: a step is refused only for what the decoder rejects, and the held inputs are never rejected. -/
theorem onlyNonEvaluationsAreRefused : Obligations.OnlyNonEvaluationsAreRefused := by
  intro s
  obtain hnext | ⟨why, herror, hrefused⟩ := step_cases s
  · exact .inl ⟨_, hnext⟩
  · right
    cases hpending : s.pending with
    | nil =>
      rw [fetch_of_pending_nil hpending, decode_heldEvaluation] at herror
      cases herror
    | cons e rest =>
      rw [fetch_of_pending_cons hpending] at herror
      obtain ⟨hport, hd⟩ | ⟨hport, ⟨-, hd⟩ | ⟨-, f, hd⟩ | ⟨hform, hnone, hd⟩⟩ := decode_cases e <;>
        cases herror.symm.trans hd
      · exact .inl ⟨e, rest, rfl, hport, hrefused⟩
      · exact .inr ⟨e, rest, rfl, hport, hform, hnone, hrefused⟩

end Sys2Proof.Machine

/-!
The illegal vectors (spec/30_encoding.md R71): what becomes of them at each level, and how many there are.
-/

namespace Sys2Proof

/-! ### How many vectors are legal -/

/-- The numbers below `k * m` counted by quotient and remainder. -/
theorem countP_range_mul (p q : Nat → Bool) (k m : Nat) :
    ((List.range (k * m)).countP fun n => p (n / m) && q (n % m)) =
      (List.range k).countP p * (List.range m).countP q := by
  induction k with
  | zero => simp
  | succ k ih =>
    have hblock : ((List.range m).countP fun r => p ((k * m + r) / m) && q ((k * m + r) % m)) =
        (List.range m).countP fun r => p k && q r := by
      refine List.countP_congr fun r hr => ?_
      have hlt : r < m := List.mem_range.1 hr
      rw [Nat.mul_add_mod_of_lt hlt, Nat.add_comm, Nat.add_mul_div_right _ _ (Nat.zero_lt_of_lt hlt),
        Nat.div_eq_of_lt hlt, Nat.zero_add]
    rw [Nat.succ_mul, List.range_add, List.countP_append, ih, List.countP_map, Function.comp_def, hblock,
      List.range_succ, List.countP_append, Nat.add_mul]
    cases hk : p k <;> simp [hk]

/-- Which vectors name a record, by quotients and remainders of the vector as a number. -/
theorem isSome_recordOfPorts_ofNat (n : Nat) :
    (recordOfPorts (portsOfVector (BitVec.ofNat 13 n))).isSome =
      (decide (n / 16 / 16 % 16 ≤ 2) && decide (n % 16 ≤ 5)) := by
  have hop : (portsOfVector (BitVec.ofNat 13 n)).opcode.toNat = n / 16 / 16 % 16 := by
    simp only [portsOfVector, BitVec.extractLsb'_toNat, BitVec.toNat_ofNat, Nat.shiftRight_eq_div_pow]
    omega
  have hrc : (portsOfVector (BitVec.ofNat 13 n)).responseCode.toNat = n % 16 := by
    simp [portsOfVector]
  rw [recordOfPorts_isSome, opcodeInRange, responseCodeInRange, hop, hrc]

/-- 576 vectors name a record: 2 message types, 3 opcodes, 16 values of the switches, 6 response codes. -/
theorem countP_isSome_recordOfPorts :
    ((List.range 8192).countP fun n => (recordOfPorts (portsOfVector (BitVec.ofNat 13 n))).isSome) = 576 := by
  have hopcodes : ((List.range 512).countP fun n => decide (n / 16 % 16 ≤ 2)) = 96 := by
    have h := countP_range_mul (fun n => decide (n % 16 ≤ 2)) (fun _ => true) 32 16
    simp only [Bool.and_true] at h
    rw [h]
    decide
  have hcodes : ((List.range 16).countP fun n => decide (n ≤ 5)) = 6 := by decide
  simp only [isSome_recordOfPorts_ofNat]
  rw [countP_range_mul (fun n => decide (n / 16 % 16 ≤ 2)) (fun n => decide (n ≤ 5)) 512 16, hopcodes, hcodes]

/-- What is not counted under `isSome` is counted under `isNone`. -/
theorem countP_isNone_of_countP_isSome {α β : Type} {l : List α} {f : α → Option β} {k m : Nat}
    (hsome : (l.countP fun a => (f a).isSome) = k) (hlength : l.length = k + m) :
    (l.countP fun a => (f a).isNone) = m := by
  have hnone : (fun a => (f a).isNone) = fun a => decide ¬(f a).isSome = true := by
    funext a
    cases f a <;> rfl
  have htotal := List.length_eq_countP_add_countP (fun a => (f a).isSome) (l := l)
  rw [hnone]
  omega

/-- The other 7616 vectors name none. -/
theorem countP_isNone_recordOfPorts :
    ((List.range 8192).countP fun n => (recordOfPorts (portsOfVector (BitVec.ofNat 13 n))).isNone) = 7616 :=
  countP_isNone_of_countP_isSome countP_isSome_recordOfPorts List.length_range

/-- Settles O6: an illegal vector names no record, so the record form rejects it and its port-level row evaluates its ports
to the error. -/
theorem illegalVectorsCounted : Obligations.IllegalVectorsCounted := by
  refine ⟨fun v hcodes => ?_, countP_isSome_recordOfPorts, countP_isNone_recordOfPorts⟩
  have hrange : Machine.fieldOutOfRange (portsOfVector v) = true := Machine.fieldOutOfRange_iff.2 hcodes
  have hnone := (Machine.recordOfPorts_eq_none_iff _).2 hrange
  refine ⟨hnone, ?_, fun s => ?_⟩
  · rw [decode_record_wordOfVector, decodeRecord_of_none hnone]
  · refine ⟨_, _, decode_vector_wordOfVector v, Machine.exec_eq _ s, ?_⟩
    rw [Machine.driveOutputs_outputs, portsOfInstr_decodeVector, Machine.evaluatePorts_of_outOfRange hrange]

end Sys2Proof

/-!
ENCODE (spec/40_encode.md): the word as the union of the fields' contributions, the closed forms that follow because the
contributions are disjoint, and what each field can and cannot change in the word.
-/

namespace Sys2Proof.Machine

/-! ### Words within a range of bits -/

theorem within_of_subset {x m n : Word} (hx : x &&& m = x) (hmn : m &&& n = m) : x &&& n = x := by
  calc x &&& n = (x &&& m) &&& n := by rw [hx]
    _ = x &&& (m &&& n) := BitVec.and_assoc ..
    _ = x := by rw [hmn, hx]

/-- Where a bit of a word can be set is read off the range the word stays within. -/
theorem of_getLsbD_of_within {x m : Word} {P : Nat → Prop} (hx : x &&& m = x)
    (hm : ∀ k < 16, m.getLsbD k = true → P k) {k : Nat} (hk : x.getLsbD k = true) : P k := by
  refine hm k (BitVec.lt_of_getLsbD hk) ?_
  rw [← hx, BitVec.getLsbD_and, Bool.and_eq_true] at hk
  exact hk.2

theorem getLsbD_placeOpcode_eq_false (c : Nibble) {k : Nat} (hk : ¬(11 ≤ k ∧ k ≤ 14)) :
    (placeOpcode (c.setWidth 16)).getLsbD k = false :=
  Bool.eq_false_iff.2 fun h =>
    hk (of_getLsbD_of_within (P := fun k => 11 ≤ k ∧ k ≤ 14) (placeOpcode_within c) (by decide) h)

theorem getLsbD_placeResponseCode_eq_false (c : Nibble) {k : Nat} (hk : 4 ≤ k) :
    (placeResponseCode (c.setWidth 16)).getLsbD k = false :=
  Bool.eq_false_iff.2 fun h =>
    Nat.not_lt.2 hk (of_getLsbD_of_within (P := fun k => k < 4) (placeResponseCode_within c) (by decide) h)

/-! ### The mask -/

/-- Steps 1 to 4 reach only the bits above the reserved ones (R109). -/
theorem accumulate_within (mt : Bit) (op : Nibble) (aa tc rd ra : Bool) :
    accumulate (mt.setWidth 16) (op.setWidth 16) aa tc rd ra &&& 0xFF80 =
      accumulate (mt.setWidth 16) (op.setWidth 16) aa tc rd ra := by
  have hzero : (0 : Word) &&& 0xFF80 = 0 := BitVec.zero_and
  have hmt := within_of_subset (n := 0xFF80) (placeMessageType_within mt) (by decide)
  have hop := within_of_subset (n := 0xFF80) (placeOpcode_within op) (by decide)
  have haa := within_of_subset (n := 0xFF80) (placeSwitch_within shiftAuthoritative aa) (by decide)
  have htc := within_of_subset (n := 0xFF80) (placeSwitch_within shiftTruncated tc) (by decide)
  have hrd := within_of_subset (n := 0xFF80) (placeSwitch_within shiftRecursionDesired rd) (by decide)
  have hra := within_of_subset (n := 0xFF80) (placeSwitch_within shiftRecursionAvailable ra) (by decide)
  simp only [accumulate, BitVec.and_or_distrib_right, hzero, hmt, hop, haa, htc, hrd, hra]

/-- The mask is a no-op on the accumulator of codes as wide as their fields (R109). -/
theorem maskReserved_accumulate (mt : Bit) (op : Nibble) (aa tc rd ra : Bool) :
    maskReserved (accumulate (mt.setWidth 16) (op.setWidth 16) aa tc rd ra) =
      accumulate (mt.setWidth 16) (op.setWidth 16) aa tc rd ra :=
  within_of_subset (accumulate_within mt op aa tc rd ra) (by decide)

/-- Decision D17: on every word the AND is the constant 0 driven on bits 6 to 4. -/
theorem maskReserved_eq_append (acc : Word) :
    maskReserved acc = (acc.extractLsb' 7 9 ++ 0b000#3 ++ acc.extractLsb' 0 4).cast rfl := by
  apply BitVec.eq_of_getLsbD_eq
  intro k hk
  simp only [maskReserved, reservedMask, BitVec.getLsbD_and, BitVec.getLsbD_cast, BitVec.getLsbD_append,
    BitVec.getLsbD_extractLsb']
  interval_cases k <;> simp

/-- Settles O13: the accumulator stays within 0xFF80, which the mask keeps. -/
theorem maskIsNoOpOnRecords : Obligations.MaskIsNoOpOnRecords := by
  intro f acc
  have hwithin : acc &&& 0xFF80 = acc := accumulate_within ..
  have hbits : ∀ k < 16, (0xFF80 : Word).getLsbD k = true → k = 15 ∨ (11 ≤ k ∧ k ≤ 14) ∨ (7 ≤ k ∧ k ≤ 10) := by
    decide
  exact ⟨fun _ => of_getLsbD_of_within hwithin hbits, maskReserved_accumulate .., maskReserved_eq_append acc⟩

/-- Settles O14: a 4-bit response code stays within bits that the mask keeps. -/
theorem maskOrderIsIrrelevant : Obligations.MaskOrderIsIrrelevant := by
  intro acc rc
  have hkept : placeResponseCode (rc.setWidth 16) &&& reservedMask = placeResponseCode (rc.setWidth 16) :=
    within_of_subset (placeResponseCode_within rc) (by decide)
  simp only [addResponseCode, maskReserved, BitVec.and_or_distrib_right, hkept]

/-! ### The word as the union of its contributions -/

/-- What the fields of a record contribute to its word, in the order of the steps (R102 to R104, R106). -/
def contributions (f : Flags) : List Word :=
  [placeMessageType (f.messageType.code.setWidth 16), placeOpcode (f.opcode.code.setWidth 16),
    placeSwitch shiftAuthoritative f.authoritative, placeSwitch shiftTruncated f.truncated,
    placeSwitch shiftRecursionDesired f.recursionDesired, placeSwitch shiftRecursionAvailable f.recursionAvailable,
    placeResponseCode (f.responseCode.code.setWidth 16)]

/-- Without the mask, which changes nothing, the steps OR the contributions together (R108). -/
theorem encodeWord_eq_or (f : Flags) :
    encodeWord f =
      placeMessageType (f.messageType.code.setWidth 16) ||| placeOpcode (f.opcode.code.setWidth 16)
        ||| placeSwitch shiftAuthoritative f.authoritative ||| placeSwitch shiftTruncated f.truncated
        ||| placeSwitch shiftRecursionDesired f.recursionDesired
        ||| placeSwitch shiftRecursionAvailable f.recursionAvailable
        ||| placeResponseCode (f.responseCode.code.setWidth 16) := by
  rw [encodeWord, composeWord, maskReserved_accumulate, accumulate, BitVec.ofNat_eq_ofNat, BitVec.zero_or]
  rfl

theorem contributions_pairwise_disjoint (f : Flags) : (contributions f).Pairwise fun x y => x &&& y = 0 := by
  obtain ⟨-, -, hdisjoint, -⟩ := contributionsAreDisjoint
  exact (hdisjoint f.messageType.code f.opcode.code f.responseCode.code f.authoritative f.truncated f.recursionDesired
    f.recursionAvailable).sublist (by simp [contributions])

/-- An operation that is OR on disjoint words is OR along a list of disjoint words. -/
theorem foldl_eq_foldl_or {w : Nat} {op : BitVec w → BitVec w → BitVec w}
    (hop : ∀ x y, x &&& y = 0 → op x y = x ||| y) {l : List (BitVec w)} {x : BitVec w}
    (hdisjoint : (x :: l).Pairwise fun x y => x &&& y = 0) : l.foldl op x = l.foldl (· ||| ·) x := by
  induction l generalizing x with
  | nil => rfl
  | cons y l ih =>
    obtain ⟨hx, hyl⟩ := List.pairwise_cons.1 hdisjoint
    obtain ⟨hy, hl⟩ := List.pairwise_cons.1 hyl
    rw [List.foldl_cons, List.foldl_cons, hop x y (hx y List.mem_cons_self)]
    refine ih (List.pairwise_cons.2 ⟨fun z hz => ?_, hl⟩)
    rw [BitVec.and_or_distrib_right, hx z (List.mem_cons_of_mem _ hz), hy z hz]
    exact BitVec.or_self

/-- So any such operation puts the word together from the contributions. -/
theorem encodeWord_eq_combine {op : Word → Word → Word} (hop : ∀ x y, x &&& y = 0 → op x y = x ||| y) (f : Flags) :
    encodeWord f =
      op (op (op (op (op (op (placeMessageType (f.messageType.code.setWidth 16))
        (placeOpcode (f.opcode.code.setWidth 16)))
        (placeSwitch shiftAuthoritative f.authoritative)) (placeSwitch shiftTruncated f.truncated))
        (placeSwitch shiftRecursionDesired f.recursionDesired))
        (placeSwitch shiftRecursionAvailable f.recursionAvailable))
        (placeResponseCode (f.responseCode.code.setWidth 16)) :=
  (encodeWord_eq_or f).trans (foldl_eq_foldl_or hop (contributions_pairwise_disjoint f)).symm

theorem xor_eq_or_of_and_eq_zero {w : Nat} (x y : BitVec w) (h : x &&& y = 0) : x ^^^ y = x ||| y := by
  apply BitVec.eq_of_getLsbD_eq
  intro k _
  have hbit : (x.getLsbD k && y.getLsbD k) = false := by
    rw [← BitVec.getLsbD_and, h]
    exact BitVec.getLsbD_zero
  rw [BitVec.getLsbD_xor, BitVec.getLsbD_or]
  cases hx : x.getLsbD k with
  | false => rw [Bool.false_xor, Bool.false_or]
  | true =>
    rw [hx, Bool.true_and] at hbit
    rw [hbit, Bool.xor_false, Bool.or_false]

/-- Settles O8: the contributions are the codes shifted into place, and FLAGS16 is their concatenation. -/
theorem encodeClosedForms : Obligations.EncodeClosedForms := by
  intro f p shifted
  refine ⟨?_, encodeWord_eq_flags16 f, ?_⟩
  · rw [encodeWord_eq_or]
    simp only [placeSwitch_eq_shiftLeft]
    rfl
  · rw [encodeWord_eq_combine BitVec.add_eq_or_of_and_eq_zero]
    simp only [placeSwitch_eq_shiftLeft]
    rfl

/-! ### What a field changes in the word -/

/-- The contribution of a switch toggled is the contribution with the switch's bit flipped. -/
theorem placeSwitch_not (k : Nat) (on : Bool) : placeSwitch k (!on) = placeSwitch k on ^^^ (1 <<< k) := by
  cases on with
  | false => exact BitVec.zero_xor.symm
  | true => exact BitVec.xor_self.symm

/-- A bit flipped early is a bit flipped last. -/
theorem xor_bit_xor (x y : Word) (k : Nat) : x ^^^ (1 <<< k) ^^^ y = x ^^^ y ^^^ (1 <<< k) := by
  rw [BitVec.xor_assoc, BitVec.xor_comm (1 <<< k), ← BitVec.xor_assoc]

/-- Settles O11: the word is the XOR of the contributions, so a bit flipped in one of them is flipped in the word. -/
theorem switchesAreIsolated : Obligations.SwitchesAreIsolated := by
  intro f
  simp only [encodeWord_eq_combine xor_eq_or_of_and_eq_zero, placeSwitch_not, ← BitVec.xor_assoc, xor_bit_xor]
  exact ⟨rfl, rfl, rfl, rfl⟩

/-- Settles O12: only the opcode's own contribution reads the opcode, and it has no bit outside its range; the response
code likewise. -/
theorem fourBitFieldsAreIsolated : Obligations.FourBitFieldsAreIsolated := by
  refine ⟨fun f o k hk => ?_, fun f r k hk => ?_⟩
  · simp only [encodeWord_eq_or, BitVec.getLsbD_or, getLsbD_placeOpcode_eq_false _ hk]
  · simp only [encodeWord_eq_or, BitVec.getLsbD_or, getLsbD_placeResponseCode_eq_false _ hk]

/-! ### ENCODE from any state -/

/-- ENCODE delivers its word (R100). -/
theorem exec_encode (f : Flags) (s : State) :
    exec (.encode f) s = .next (driveOutputs (.word (encodeWord f)) s) := rfl

/-- Step 4 for one switch: a set bit if true, nothing if false (R104). -/
theorem or_placeSwitch (acc : Word) (k : Nat) (on : Bool) :
    acc ||| placeSwitch k on = if on then acc ||| (1 <<< k) else acc := by
  cases on with
  | false => exact BitVec.or_zero
  | true => rfl

/-- Settles O7: the word delivered is composed by the same steps, each switch's step being a choice. -/
theorem encodeRunsTheSevenSteps : Obligations.EncodeRunsTheSevenSteps := by
  refine ⟨fun f s => ⟨_, exec_encode f s, rfl, rfl, rfl, ?_⟩, by decide, by decide, ⟨by decide, fun _ => rfl⟩,
    fun r => ?_⟩
  · simp only [flagsPort_driveOutputs_word, encodeWord, composeWord, accumulate, or_placeSwitch]
    rfl
  · cases r <;> rfl

/-- Settles O16: ENCODE delivers a word whose fields are the record's codes, whatever they are. -/
theorem noSemanticChecks : Obligations.NoSemanticChecks := by
  have hauthoritativeQuery : encodeWord ⟨.query, .query, true, false, false, false, .noError⟩ = 0x0400 := by decide
  have hnxDomainQuery : encodeWord ⟨.query, .query, false, false, false, false, .nxDomain⟩ = 0x0003 := by decide
  exact ⟨fun f s => ⟨_, exec_encode f s, fieldsOfWord_encodeWord f, wordReserved_encodeWord f⟩,
    fun s => ⟨_, exec_encode _ s, hauthoritativeQuery⟩, fun s => ⟨_, exec_encode _ s, hnxDomainQuery⟩⟩

/-- Settles O17: the steps run on the four fixed codes. -/
theorem wideCodesWouldCollide : Obligations.WideCodesWouldCollide :=
  ⟨by decide, by decide, by decide, by decide⟩

/-- Settles O9: each contribution is at most the largest record's, and the word is at most their sum. -/
theorem encodeCornerCases : Obligations.EncodeCornerCases := by
  refine ⟨by decide, by decide, by decide, fun f => ?_⟩
  have hmt : (placeMessageType (f.messageType.code.setWidth 16)).toNat ≤ 0x8000 := by cases f.messageType <;> decide
  have hop : (placeOpcode (f.opcode.code.setWidth 16)).toNat ≤ 0x1000 := by cases f.opcode <;> decide
  have haa : (placeSwitch shiftAuthoritative f.authoritative).toNat ≤ 0x0400 := by cases f.authoritative <;> decide
  have htc : (placeSwitch shiftTruncated f.truncated).toNat ≤ 0x0200 := by cases f.truncated <;> decide
  have hrd : (placeSwitch shiftRecursionDesired f.recursionDesired).toNat ≤ 0x0100 := by
    cases f.recursionDesired <;> decide
  have hra : (placeSwitch shiftRecursionAvailable f.recursionAvailable).toNat ≤ 0x0080 := by
    cases f.recursionAvailable <;> decide
  have hrc : (placeResponseCode (f.responseCode.code.setWidth 16)).toNat ≤ 0x0005 := by
    cases f.responseCode <;> decide
  simp only [encodeWord_eq_combine BitVec.add_eq_or_of_and_eq_zero, BitVec.toNat_add]
  omega

/-! ### Injectivity -/

/-- R112: every field is recoverable from its own range of the word. -/
theorem recordOfPorts_fieldsOfWord_encodeWord (f : Flags) : recordOfPorts (fieldsOfWord (encodeWord f)) = some f := by
  rw [fieldsOfWord_encodeWord, recordOfPorts_portsOfRecord]

theorem encodeWord_injective : Function.Injective encodeWord := fun f g h =>
  Option.some.inj <| by
    rw [← recordOfPorts_fieldsOfWord_encodeWord f, h, recordOfPorts_fieldsOfWord_encodeWord g]

/-- The input vector of a record, as a number. -/
def recordNumber (f : Flags) : Nat := (vectorOfPorts (portsOfRecord f)).toNat

theorem recordOfPorts_recordNumber (f : Flags) :
    recordOfPorts (portsOfVector (BitVec.ofNat 13 (recordNumber f))) = some f := by
  rw [recordNumber, BitVec.ofNat_toNat, BitVec.setWidth_eq, portsOfVector_vectorOfPorts, recordOfPorts_portsOfRecord]

theorem recordNumber_injective : Function.Injective recordNumber := fun f g h =>
  Option.some.inj <| by rw [← recordOfPorts_recordNumber f, h, recordOfPorts_recordNumber g]

/-- The numbers of records are the vectors that name one (R71). -/
theorem range_recordNumber :
    Set.range recordNumber =
      {n ∈ Finset.range 8192 | (recordOfPorts (portsOfVector (BitVec.ofNat 13 n))).isSome} := by
  ext n
  simp only [Set.mem_range, Finset.coe_filter, Finset.mem_range, Set.mem_ofPred_eq]
  constructor
  · rintro ⟨f, rfl⟩
    exact ⟨(vectorOfPorts (portsOfRecord f)).isLt, by rw [recordOfPorts_recordNumber]; rfl⟩
  · rintro ⟨hn, hsome⟩
    obtain ⟨f, hf⟩ := Option.isSome_iff_exists.1 hsome
    refine ⟨f, ?_⟩
    rw [recordNumber, portsOfRecord_of_recordOfPorts hf, vectorOfPorts_portsOfVector, BitVec.toNat_ofNat,
      Nat.mod_eq_of_lt hn]

theorem card_filter_range_eq_countP (p : Nat → Bool) (n : Nat) :
    Finset.card {k ∈ Finset.range n | p k} = (List.range n).countP p := by
  calc Finset.card {k ∈ Finset.range n | p k}
      = ((List.range n).filter fun k => decide (p k = true)).length := rfl
    _ = (List.range n).countP p := by simp only [Bool.decide_eq_true, List.countP_eq_length_filter]

/-- There are as many records as vectors that name one. -/
theorem card_flags : Nat.card Flags = 576 := by
  rw [← Set.ncard_range_of_injective recordNumber_injective, range_recordNumber, Set.ncard_coe_finset,
    card_filter_range_eq_countP, countP_isSome_recordOfPorts]

/-- Settles O10: the record is read back from its word, so the words are as many as the records. -/
theorem encodeInjective : Obligations.EncodeInjective := by
  refine ⟨fun f g s s' => ⟨_, _, exec_encode f s, exec_encode g s', encodeWord_injective.eq_iff⟩,
    recordOfPorts_fieldsOfWord_encodeWord, ?_⟩
  rw [Set.ncard_range_of_injective encodeWord_injective, card_flags]

end Sys2Proof.Machine

/-!
ENCODE_RAW and the error (spec/41_encode_raw.md, spec/60_exceptions.md): the two outcomes at the port level, the error
bit in the forms of R132, and the step after an error.
-/

namespace Sys2Proof.Machine

/-! ### The two outcomes of ENCODE_RAW -/

/-- The ports name a record exactly when both 4-bit codes are in range (R130, R132). -/
theorem exists_recordOfPorts_iff {p : Ports} :
    (∃ f, recordOfPorts p = some f) ↔ p.opcode.toNat ≤ 2 ∧ p.responseCode.toNat ≤ 5 := by
  rw [← Option.isSome_iff_exists, recordOfPorts_isSome, Bool.and_eq_true, opcodeInRange_iff, responseCodeInRange_iff]

/-- ENCODE_RAW ends with the evaluation of its ports on the outputs, all else as it was (R130). -/
theorem exec_encodeRaw_of_evaluatePorts {p : Ports} {r : EvalResult} (h : evaluatePorts p = r) (s : State) :
    exec (.encodeRaw p) s = .next (driveOutputs r s) := by
  rw [exec_eq, portsOfInstr, h]

theorem exec_encodeRaw_of_outOfRange {p : Ports} (h : p.opcode.toNat > 2 ∨ p.responseCode.toNat > 5) (s : State) :
    exec (.encodeRaw p) s = .next (driveOutputs .invalidFieldValue s) :=
  exec_encodeRaw_of_evaluatePorts (evaluatePorts_of_outOfRange (fieldOutOfRange_iff.2 h)) s

/-- Settles O18: codes out of range fail the check; codes in range name a record, whose codes the ports are. -/
theorem encodeRawChecksThenEncodes : Obligations.EncodeRawChecksThenEncodes := by
  have hvalid : evaluatePorts (portsOfVector 0x11F5) = .word 0x8F85 := by decide
  have hinvalid : evaluatePorts (portsOfVector 0x0300) = .invalidFieldValue := by decide
  refine ⟨fun p s hrange => ?_, fun p s hop hrc => ?_, fun s => ?_, fun s => ?_⟩
  · exact ⟨_, exec_encodeRaw_of_outOfRange hrange s, rfl, rfl, rfl, rfl, rfl, rfl⟩
  · obtain ⟨f, hrecord⟩ := exists_recordOfPorts_iff.2 ⟨hop, hrc⟩
    obtain rfl := portsOfRecord_of_recordOfPorts hrecord
    exact ⟨_, f, exec_encodeRaw_of_evaluatePorts (evaluatePorts_of_record hrecord) s, rfl, rfl, rfl, rfl,
      (boolOfBit_bitOfBool f.authoritative).symm, (boolOfBit_bitOfBool f.truncated).symm,
      (boolOfBit_bitOfBool f.recursionDesired).symm, (boolOfBit_bitOfBool f.recursionAvailable).symm,
      rfl, rfl, rfl, rfl, rfl⟩
  · exact ⟨_, exec_encodeRaw_of_evaluatePorts hvalid s, rfl, rfl⟩
  · exact ⟨_, exec_encodeRaw_of_evaluatePorts hinvalid s, rfl, rfl⟩

/-- Settles O21: the state an invalid input ends in does not depend on the input. -/
theorem oneErrorWithoutFieldIdentity : Obligations.OneErrorWithoutFieldIdentity := fun _ _ s hp hq =>
  ⟨_, exec_encodeRaw_of_outOfRange hp s, exec_encodeRaw_of_outOfRange hq s, rfl⟩

/-- Settles O23: the meaning of each row is the error, whatever its free bits are. -/
theorem invalidRowsRaise : Obligations.InvalidRowsRaise := by
  intro mt aa tc rd ra op rc lo1 lo2 lo3 s i hi
  have hraise : exec i s = raiseInvalidFieldValue s := by
    simp only [List.mem_cons, List.not_mem_nil, or_false] at hi
    obtain rfl | rfl | rfl | rfl | rfl := hi <;> rfl
  exact ⟨_, hraise, rfl, rfl, rfl, rfl, rfl⟩

/-! ### The error bit -/

/-- The error port after an evaluation of the ports is the check's bit (R132, R133). -/
theorem invalidFieldValuePort_evaluatePorts (p : Ports) (s : State) :
    invalidFieldValuePort (driveOutputs (evaluatePorts p) s) = BitVec.ofBool (fieldOutOfRange p) := by
  obtain ⟨f, hrecord, -, hword⟩ | ⟨hrange, herror⟩ := evaluatePorts_cases p
  · rw [hword, fieldOutOfRange_of_record hrecord]
    rfl
  · rw [herror, hrange]
    rfl

theorem decide_opcode_gt_eq_gates :
    ∀ c : Nibble, decide (c.toNat > 2) = (c.getLsbD 3 || c.getLsbD 2 || (c.getLsbD 1 && c.getLsbD 0)) := by decide

theorem decide_responseCode_gt_eq_gates :
    ∀ c : Nibble, decide (c.toNat > 5) = (c.getLsbD 3 || (c.getLsbD 2 && c.getLsbD 1)) := by decide

/-- The two lines of R132 are one bit. -/
theorem fieldOutOfRange_eq_gates (p : Ports) : fieldOutOfRange p = fieldOutOfRangeGates p := by
  rw [fieldOutOfRange, decide_opcode_gt_eq_gates, decide_responseCode_gt_eq_gates, ← Bool.or_assoc]
  rfl

theorem extractLsb'_one_eq_ofBool {w : Nat} (x : BitVec w) (k : Nat) :
    x.extractLsb' k 1 = BitVec.ofBool (x.getLsbD k) := by
  ext i hi
  obtain rfl : i = 0 := by omega
  simp

/-- The gates of R132 on 1-bit vectors are the gates on booleans. -/
theorem ofBool_fieldOutOfRangeGates (p : Ports) :
    BitVec.ofBool (fieldOutOfRangeGates p) =
      p.opcode.extractLsb' 3 1 ||| p.opcode.extractLsb' 2 1 |||
        (p.opcode.extractLsb' 1 1 &&& p.opcode.extractLsb' 0 1) |||
        p.responseCode.extractLsb' 3 1 ||| (p.responseCode.extractLsb' 2 1 &&& p.responseCode.extractLsb' 1 1) := by
  simp only [extractLsb'_one_eq_ofBool, BitVec.ofBool_or_ofBool, BitVec.ofBool_and_ofBool]
  rfl

/-- Settles O19: the error port is the check's bit, the check is its gates, and a code names a variant exactly when the
table reads one from it. -/
theorem errorBitEquations : Obligations.ErrorBitEquations := by
  refine ⟨fun c => ?_, fun c => ?_, fun c => ⟨_, code_messageTypeOfCode c⟩,
    fun p s => ⟨_, exec_encodeRaw_of_evaluatePorts rfl s, ?_, ?_, ?_⟩⟩
  · simp only [← opcodeOfCode_eq_some_iff]
    rw [← Option.isSome_iff_exists, opcodeOfCode_isSome, opcodeInRange_iff]
  · simp only [← responseCodeOfCode_eq_some_iff]
    rw [← Option.isSome_iff_exists, responseCodeOfCode_isSome, responseCodeInRange_iff]
  · rw [invalidFieldValuePort_evaluatePorts, ← fieldOutOfRange_iff]
    cases fieldOutOfRange p <;> decide
  · rw [invalidFieldValuePort_evaluatePorts, fieldOutOfRange_eq_gates, ofBool_fieldOutOfRangeGates]
  · rw [invalidFieldValuePort_evaluatePorts, fieldOutOfRange_eq_gates]

/-- Settles O20: the check reads the two 4-bit codes and no other port. -/
theorem switchesAndMessageTypeNeverRaise : Obligations.SwitchesAndMessageTypeNeverRaise := by
  intro p q s hop hrc
  refine ⟨_, _, exec_encodeRaw_of_evaluatePorts rfl s, exec_encodeRaw_of_evaluatePorts rfl s, ?_⟩
  rw [invalidFieldValuePort_evaluatePorts, invalidFieldValuePort_evaluatePorts, fieldOutOfRange, fieldOutOfRange, hop,
    hrc]

/-! ### The step after an error -/

/-- A step on a pending vector drives its bits on the ports and puts their evaluation on the outputs (R183). -/
theorem step_of_pending_vector {s : State} {v : InputVector} {rest : List Evaluation}
    (h : s.pending = ⟨.vector, wordOfVector v⟩ :: rest) :
    step s = .next { ports := portsOfVector v, outputs := evaluatePorts (portsOfVector v), pending := rest } := by
  rw [step_of_pending_cons h (decode_vector_wordOfVector v), exec_eq, portsOfInstr_decodeVector]
  rfl

/-- Settles O37: a valid vector after the error is evaluated like any other, and held inputs keep the outputs of their
own evaluation. -/
theorem errorIsNotSticky : Obligations.ErrorIsNotSticky := by
  intro s bad f rest hbad
  have herror : evaluatePorts (portsOfVector bad) = .invalidFieldValue :=
    evaluatePorts_of_outOfRange (fieldOutOfRange_iff.2 hbad)
  have hword : evaluatePorts (portsOfVector (vectorOfPorts (portsOfRecord f))) = .word (encodeWord f) := by
    rw [portsOfVector_vectorOfPorts, evaluatePorts_of_record (recordOfPorts_portsOfRecord f)]
  refine ⟨fun hpending => ?_, fun hpending => ?_⟩
  · have hstep := step_of_pending_vector hpending
    rw [herror] at hstep
    refine ⟨_, _, hstep, rfl, step_of_pending_vector rfl, ?_⟩
    rw [hword]
    exact ⟨rfl, rfl, rfl⟩
  · have hstep := step_of_pending_vector hpending
    have hheld := heldInputsKeepTheOutputs _ rfl (outputsMatchInputs_of_step hstep)
    rw [herror] at hstep hheld
    exact ⟨_, hstep, rfl, hheld⟩

end Sys2Proof.Machine
